-- ==== Sys2Proof/Word.lean ====
section
/-! DEFINITION. The machine word and the index types (00_scope.md R5, R12, R13). -/

namespace Sys2Proof

/-- A register or memory word: a 32-bit pattern (R12). Its two's-complement reading `signed(v)` is `BitVec.toInt`. -/
abbrev Word := BitVec 32

/-- The number of a general register, always in `[0, 31]` by construction (R21, R90). -/
abbrev RegIndex := Fin 32

/-- A valid word index of the memory `M` (R28, R40: the access primitives are defined only for `0 <= a <= 255`). -/
abbrev MemIndex := Fin 256

end Sys2Proof
end

