-- ==== Sys2Proof/Config.lean ====
section
/-! DEFINITION. The constants of 00_scope.md R5. Every size is fixed by the spec ("none is left to the implementation")
and no run-time value is left open, so there is no implementation choice and no free value here. -/

namespace Sys2Proof.Config

/-- `MEMWORDS` (R5): exactly 256 memory words; an effective address is valid in `[0, 256)`. -/
abbrev memoryWords : Nat := 256

/-- The only request length that is accepted (R5, R80): exactly 8 characters. -/
abbrev requestLength : Nat := 8

end Sys2Proof.Config
end

