-- ==== Sys2Proof/Syntax.lean ====
section
/-! DEFINITION. The ten instructions, one constructor per row of spec/opcode_table.json (30_encoding.md R62, R63, R66, R67;
40_decode_pipeline.md R90). A word that matches no row is no instruction of the set: `Classified.unknown` in Decode.lean. -/

namespace Sys2Proof

/-- The closed set of instructions. Field names are the spec's short names: `rs` = sourceReg1, `rt` = sourceReg2,
`rd` = destReg, `shamt` = shiftAmount (decoded, used by no operation, R68), `imm` = the sign-extended immediate, a signed
integer that the decoder always leaves in `[-32768, 32767]` (R65; `WellFormed` is that range). -/
inductive Instr where
  | add  (rs rt rd : RegIndex) (shamt : Fin 32)
  | sub  (rs rt rd : RegIndex) (shamt : Fin 32)
  | and  (rs rt rd : RegIndex) (shamt : Fin 32)
  | or   (rs rt rd : RegIndex) (shamt : Fin 32)
  | xor  (rs rt rd : RegIndex) (shamt : Fin 32)
  | beq  (rs rt : RegIndex) (imm : Int)
  | bne  (rs rt : RegIndex) (imm : Int)
  | addi (rs rt : RegIndex) (imm : Int)
  | lw   (rs rt : RegIndex) (imm : Int)
  | sw   (rs rt : RegIndex) (imm : Int)
  deriving DecidableEq, Repr

end Sys2Proof
end

