-- ==== Sys2Proof/WellFormed.lean ====
section
/-! DEFINITION. Which terms of `Instr` some word stands for (30_encoding.md R63, R65). -/

namespace Sys2Proof

/-- The range of a sign-extended 16-bit immediate, `[-32768, 32767]` (R65). -/
def immediateFits (imm : Int) : Bool := decide (-32768 ≤ imm) && decide (imm ≤ 32767)

/-- An instruction is well formed when its immediate, if it has one, is a value the 16-bit field can hold. The register
numbers and the shift amount are in range by their types (R90). -/
def WellFormed : Instr → Bool
  | .add _ _ _ _ => true
  | .sub _ _ _ _ => true
  | .and _ _ _ _ => true
  | .or  _ _ _ _ => true
  | .xor _ _ _ _ => true
  | .beq  _ _ imm => immediateFits imm
  | .bne  _ _ imm => immediateFits imm
  | .addi _ _ imm => immediateFits imm
  | .lw   _ _ imm => immediateFits imm
  | .sw   _ _ imm => immediateFits imm

end Sys2Proof
end

