-- ==== Sys2Proof/Decode.lean ====
section
/-! DEFINITION. The decoder (BitDecoder, FieldExtractor, InstructionClassifier; 40_decode_pipeline.md R80 to R90), total on
every request string, and after it the encoder (30_encoding.md R72, 40_decode_pipeline.md R86). -/

namespace Sys2Proof

/-! ## What the decoder produces -/

/-- A request: a finite string of characters of any length, taken as it is given (00_scope.md R7; log entries 9, 10). -/
abbrev Request := List Char

/-- The two decode-time errors (R82, R83). -/
inductive DecodeError where
  | invalidLength
  | invalidDigit
  deriving DecidableEq, Repr

/-- The seven slices of a 32-bit word, all unsigned (R61, R87); `immediate` is raw, not yet sign-extended. -/
structure Fields where
  opcode    : BitVec 6
  field2    : BitVec 5
  field3    : BitVec 5
  field4    : BitVec 5
  field5    : BitVec 5
  field6    : BitVec 6
  immediate : BitVec 16
  deriving DecidableEq, Repr

/-- Which code an unknown word is unknown by (R89; log entry 11). -/
inductive Selector where
  | function
  | opcode
  deriving DecidableEq, Repr

/-- The classified instruction of R90: one of the ten, or the "unknown" variant carrying the offending 6-bit code. -/
inductive Classified where
  | known   (i : Instr)
  | unknown (selector : Selector) (code : Fin 64)
  deriving DecidableEq, Repr

/-! ## BitDecoder -/

/-- `HexVal` (R81): the 4-bit value of one of the 22 hexadecimal digit characters, undefined for every other character. -/
def hexVal : Char → Option (BitVec 4)
  | '0' => some 0x0#4
  | '1' => some 0x1#4
  | '2' => some 0x2#4
  | '3' => some 0x3#4
  | '4' => some 0x4#4
  | '5' => some 0x5#4
  | '6' => some 0x6#4
  | '7' => some 0x7#4
  | '8' => some 0x8#4
  | '9' => some 0x9#4
  | 'A' => some 0xA#4
  | 'B' => some 0xB#4
  | 'C' => some 0xC#4
  | 'D' => some 0xD#4
  | 'E' => some 0xE#4
  | 'F' => some 0xF#4
  | 'a' => some 0xA#4
  | 'b' => some 0xB#4
  | 'c' => some 0xC#4
  | 'd' => some 0xD#4
  | 'e' => some 0xE#4
  | 'f' => some 0xF#4
  | _   => none

/-- The digits of a string, or none if some character is no hexadecimal digit (R83). -/
def hexDigits : List Char → Option (List (BitVec 4))
  | []      => some []
  | c :: cs =>
    match hexVal c, hexDigits cs with
    | some d, some ds => some (d :: ds)
    | _, _            => none

/-- `w = sum over k of HexVal(req[k]) * 16^(7 - k)` (R81): the first digit is the most significant. -/
def wordOfDigits (ds : List (BitVec 4)) : Word :=
  BitVec.ofNat 32 (ds.foldl (fun n d => n * 16 + d.toNat) 0)

/-- `BitDecode` (R80): the length is tested first (log entry 9), then every character. -/
def bitDecode (req : Request) : Except DecodeError Word :=
  if req.length ≠ Config.requestLength then .error .invalidLength
  else
    match hexDigits req with
    | none    => .error .invalidDigit
    | some ds => .ok (wordOfDigits ds)

/-! ## FieldExtractor -/

/-- `Extract` (R61, R87): the slice `w[hi:lo]` is written here by its low bit and its width. -/
def extract (w : Word) : Fields :=
  { opcode    := w.extractLsb' 26 6
    field2    := w.extractLsb' 21 5
    field3    := w.extractLsb' 16 5
    field4    := w.extractLsb' 11 5
    field5    := w.extractLsb' 6 5
    field6    := w.extractLsb' 0 6
    immediate := w.extractLsb' 0 16 }

/-! ## InstructionClassifier -/

/-- `simm` (R65): the raw immediate, less 65536 if its most significant bit is 1. -/
def simm (imm : BitVec 16) : Int :=
  if imm.msb then (imm.toNat : Int) - 65536 else (imm.toNat : Int)

/-- The register form, selected by the function code (R66, R88). -/
def classifyRegister (f : Fields) : Classified :=
  match f.field6.toNat with
  | 32 => .known (.add f.field2.toFin f.field3.toFin f.field4.toFin f.field5.toFin)
  | 34 => .known (.sub f.field2.toFin f.field3.toFin f.field4.toFin f.field5.toFin)
  | 36 => .known (.and f.field2.toFin f.field3.toFin f.field4.toFin f.field5.toFin)
  | 37 => .known (.or  f.field2.toFin f.field3.toFin f.field4.toFin f.field5.toFin)
  | 38 => .known (.xor f.field2.toFin f.field3.toFin f.field4.toFin f.field5.toFin)
  | _  => .unknown .function f.field6.toFin

/-- The immediate form, selected by the opcode (R67, R88). The second register is field3, never field4 (R63, log entry 8). -/
def classifyImmediate (f : Fields) : Classified :=
  match f.opcode.toNat with
  | 4  => .known (.beq  f.field2.toFin f.field3.toFin (simm f.immediate))
  | 5  => .known (.bne  f.field2.toFin f.field3.toFin (simm f.immediate))
  | 8  => .known (.addi f.field2.toFin f.field3.toFin (simm f.immediate))
  | 35 => .known (.lw   f.field2.toFin f.field3.toFin (simm f.immediate))
  | 43 => .known (.sw   f.field2.toFin f.field3.toFin (simm f.immediate))
  | _  => .unknown .opcode f.opcode.toFin

/-- `Classify` (R88): the opcode alone selects the format (R64). -/
def classify (f : Fields) : Classified :=
  if f.opcode = 0#6 then classifyRegister f else classifyImmediate f

/-- The first three components in a row (R4, R8, R93): a request gives its word and its classified instruction, or the
decode error that rejects it by name. -/
def decodeRequest (req : Request) : Except DecodeError (Word × Classified) :=
  match bitDecode req with
  | .error e => .error e
  | .ok w    => .ok (w, classify (extract w))

/-! ## The encoder -/

/-- The opcode of each instruction (R66, R67). -/
def opcodeOf : Instr → BitVec 6
  | .add _ _ _ _ => 0#6
  | .sub _ _ _ _ => 0#6
  | .and _ _ _ _ => 0#6
  | .or  _ _ _ _ => 0#6
  | .xor _ _ _ _ => 0#6
  | .beq  _ _ _ => 4#6
  | .bne  _ _ _ => 5#6
  | .addi _ _ _ => 8#6
  | .lw   _ _ _ => 35#6
  | .sw   _ _ _ => 43#6

/-- `EncR` (R62, R72): opcode 0, sourceReg1, sourceReg2, destReg, shiftAmount, function, from the top. -/
def encodeR (funct : BitVec 6) (rs rt rd : RegIndex) (shamt : Fin 32) : Word :=
  (0#6 ++ BitVec.ofFin (w := 5) rs ++ BitVec.ofFin (w := 5) rt ++ BitVec.ofFin (w := 5) rd ++
    BitVec.ofFin (w := 5) shamt ++ funct : BitVec (6 + 5 + 5 + 5 + 5 + 6))

/-- `EncI` (R63, R72): opcode, sourceReg1, sourceReg2, `simm mod 2^16`, from the top. -/
def encodeI (opcode : BitVec 6) (rs rt : RegIndex) (imm : Int) : Word :=
  (opcode ++ BitVec.ofFin (w := 5) rs ++ BitVec.ofFin (w := 5) rt ++ BitVec.ofInt 16 imm :
    BitVec (6 + 5 + 5 + 16))

/-- The word of an instruction (R66, R67, R72). -/
def encode : Instr → Word
  | .add rs rt rd shamt => encodeR 32#6 rs rt rd shamt
  | .sub rs rt rd shamt => encodeR 34#6 rs rt rd shamt
  | .and rs rt rd shamt => encodeR 36#6 rs rt rd shamt
  | .or  rs rt rd shamt => encodeR 37#6 rs rt rd shamt
  | .xor rs rt rd shamt => encodeR 38#6 rs rt rd shamt
  | .beq  rs rt imm => encodeI 4#6 rs rt imm
  | .bne  rs rt imm => encodeI 5#6 rs rt imm
  | .addi rs rt imm => encodeI 8#6 rs rt imm
  | .lw   rs rt imm => encodeI 35#6 rs rt imm
  | .sw   rs rt imm => encodeI 43#6 rs rt imm

/-- The upper-case digit character of a 4-bit value (R81's table; upper case by R86, log entry 4). -/
def hexDigit (d : BitVec 4) : Char :=
  ['0', '1', '2', '3', '4', '5', '6', '7', '8', '9', 'A', 'B', 'C', 'D', 'E', 'F'].getD d.toNat '0'

/-- `HexEncode` (R86): character `k` is the digit of `w[31 - 4k : 28 - 4k]`. -/
def hexEncode (w : Word) : Request :=
  [hexDigit (w.extractLsb' 28 4), hexDigit (w.extractLsb' 24 4), hexDigit (w.extractLsb' 20 4),
   hexDigit (w.extractLsb' 16 4), hexDigit (w.extractLsb' 12 4), hexDigit (w.extractLsb' 8 4),
   hexDigit (w.extractLsb' 4 4), hexDigit (w.extractLsb' 0 4)]

/-- The request that carries an instruction: its word as 8 hexadecimal digits (R60). -/
def encodeRequest (i : Instr) : Request := hexEncode (encode i)

/-- The seven fields that the response of an executed instruction reports (R87, R92), cut from the instruction's own word.
No bit is lost on the way from the request's word to the instruction, so they are the slices of that word (log entry 11). -/
def fieldsOf (i : Instr) : Fields := extract (encode i)

/-! ## The opcode table's numbering -/

/-- The 32-bit word that spec/opcode_table.json numbers with `nbits` bits: the bits above `nbits` are 0. -/
def tableWord (nbits w : Nat) : Word := BitVec.ofNat 32 (w % 2 ^ nbits)

/-- The instruction the whole decoder reads from the request string of a table word; none for an unknown word. -/
def decodeTableWord (nbits w : Nat) : Option Instr :=
  match decodeRequest (hexEncode (tableWord nbits w)) with
  | .ok (_, .known i) => some i
  | .ok (_, .unknown _ _) => none
  | .error _ => none

end Sys2Proof
end

