-- ==== Sys2Proof/Machine/State.lean ====
section
/-! DEFINITION. The state of the block (10_state.md R20 to R34), the response record (40_decode_pipeline.md R92), the
reasons a step can stop, and the state after reset (10_state.md R31, 70_reset_and_hazards.md R170). -/

namespace Sys2Proof.Machine

/-! ## The response -/

/-- The outcome of an executed or unknown instruction (R92; log entry 11). -/
inductive StepOutcome where
  | regWritten   (index : RegIndex) (value : Word)
  | memWritten   (index : MemIndex) (value : Word)
  | verdict      (taken : Bool)
  | unrecognized (selector : Selector) (code : Fin 64)
  | outOfRange   (ea32 : Word)
  deriving DecidableEq, Repr

/-- What the block answers to one request (R92): a rejected request carries no fields; any other carries all seven
fields, the classified instruction and the outcome. -/
inductive Response where
  | rejected (error : DecodeError)
  | done     (fields : Fields) (ins : Classified) (outcome : StepOutcome)
  deriving DecidableEq, Repr

/-- The four error kinds of R151 with what each carries. None is a fault: each is the report of a completed step (R150). -/
inductive ErrorKind where
  | invalidLength
  | invalidDigit
  | unknownInstruction (selector : Selector) (code : Fin 64)
  | outOfRangeAccess (ea32 : Word)
  deriving DecidableEq, Repr

/-! ## The state -/

/-- One listed memory word: its word index and its 32-bit pattern. Words, not bytes (R46: "must not introduce bytes"). -/
abbrev MemCell := Nat × Word

/-- The memory as the list of its words that differ from the reset contents, indices strictly rising (log entry 5;
the canonical form is `Memory.wf` in Ops.lean). -/
abbrev Memory := List MemCell

/-- The machine. `regs` and `mem` are the whole architectural state `S` of R20; `requests` and `responses` are the
environment's two lists, the requests still to be served and the responses given so far, oldest first (R9; log entries
1, 2). There is no program counter, flag, mode or control register (R24 to R27, R158). -/
structure State where
  regs      : Vector Word 32
  mem       : Memory
  requests  : List Request
  responses : List Response
  deriving DecidableEq, Repr

/-- What the caller reads between requests (R34): all 32 registers and all 256 memory words. -/
structure Snapshot where
  regs : Vector Word 32
  mem  : Vector Word 256
  deriving DecidableEq, Repr

/-! ## Why a step can stop -/

/-- No constructor: no condition of the spec stops the block ("No error is fatal to the engine", R150), and every request
has a response in every state (R8). Safe: nothing is cut off by it (log entry 14). -/
inductive Fault where
  deriving DecidableEq, Repr

/-- Why a step has no meaning. -/
inductive Refusal where
  /-- Raised by `exec` for an instruction that has no meaning yet; every one of the ten has its meaning, so nothing raises
  it. Safe. -/
  | notModelled (mnemonic : String)
  deriving DecidableEq, Repr

/-! ## Reset -/

/-- The seed of R31 and R170: register `i` holds `i`, memory word `a` holds `a` (nothing listed, see `Memory.unlisted`),
no request submitted and no response given (log entries 1, 2, 6). -/
def State.reset : State :=
  { regs := Vector.ofFn (fun i => BitVec.ofNat 32 i.val)
    mem := []
    requests := []
    responses := [] }

end Sys2Proof.Machine
end

