-- ==== Sys2Proof/Machine/Ops.lean ====
section
/-! DEFINITION. The named operations over registers, memory and the response list (00_scope.md R13, 20_memory.md R40). -/

namespace Sys2Proof.Machine

/-! ## Registers -/

/-- `R[r]` (R13, R21). -/
def readReg (r : RegIndex) (s : State) : Word := s.regs[r]

/-- `R[r] <- v` (R13). All 32 registers are writable, register 0 included (R23, log entry 7). -/
def writeReg (r : RegIndex) (v : Word) (s : State) : State := { s with regs := s.regs.set r v }

/-! ## Memory -/

/-- What a word index that the list does not hold reads as: its reset contents, `M[a] = a` (R31, log entry 5). -/
def Memory.unlisted (a : Nat) : Word := BitVec.ofNat 32 a

/-- The word at index `a`. -/
def Memory.read (a : Nat) : Memory → Word
  | []          => Memory.unlisted a
  | (b, u) :: m => if b = a then u else Memory.read a m

/-- Puts a cell before the first cell of a greater index. -/
def Memory.insert (a : Nat) (v : Word) : Memory → Memory
  | []          => [(a, v)]
  | (b, u) :: m => if a < b then (a, v) :: (b, u) :: m else (b, u) :: Memory.insert a v m

/-- Sets the word at index `a` and no other; a word equal to its reset contents is not listed. -/
def Memory.write (a : Nat) (v : Word) (m : Memory) : Memory :=
  if v = Memory.unlisted a then m.filter (fun c => c.1 ≠ a)
  else Memory.insert a v (m.filter (fun c => c.1 ≠ a))

/-- The canonical form: indices strictly rising and inside the 256 words, no word listed that holds its reset contents. -/
abbrev Memory.wf (m : Memory) : Prop :=
  m.Pairwise (fun c d => c.1 < d.1) ∧ ∀ c ∈ m, c.1 < Config.memoryWords ∧ c.2 ≠ Memory.unlisted c.1

/-- `MemRead(a, 1)` (R13, R40): one whole word, no side effect. -/
def memRead (a : MemIndex) (s : State) : Word := Memory.read a.val s.mem

/-- `MemWrite(a, 1, v)` (R13, R40): one whole word, no other word changes. -/
def memWrite (a : MemIndex) (v : Word) (s : State) : State := { s with mem := Memory.write a.val v s.mem }

/-! ## Answering a request -/

/-- Ends a step with response `r`. -/
def respond (r : Response) (s : State) : State := { s with responses := s.responses ++ [r] }

/-- `report` (R13): the instruction completed with outcome `o`; its fields and itself go into the response (R92). -/
def report (i : Instr) (o : StepOutcome) (s : State) : State := respond (.done (fieldsOf i) (.known i) o) s

/-- `raise <Error>(info)` (R13, R150, R153), the one operation of all four error kinds: the step ends, every word of `S`
stays, nothing is saved, no mode changes, control goes nowhere; the error exists only in the response. There is no return
from it, because there is nothing to return from (R155). -/
def raiseError (r : Response) (s : State) : State := respond r s

/-- The end of every register-writing instruction: one register written, and reported with the value written (R101). -/
def writeBack (i : Instr) (rd : RegIndex) (v : Word) (s : State) : State :=
  report i (.regWritten rd v) (writeReg rd v s)

end Sys2Proof.Machine
end

