-- ==== Sys2Proof/Machine/Operands.lean ====
section
/-! DEFINITION. The operand forms: a register (`readReg`), the sign-extended immediate, and the one addressing mode, base
register plus signed word offset (30_encoding.md R65, 20_memory.md R41, R42; log entry 12). -/

namespace Sys2Proof.Machine

/-- `simm mod 2^32`, the 32-bit pattern of a sign-extended immediate (R65: `sext_32`). -/
def immWord (imm : Int) : Word := BitVec.ofInt 32 imm

/-- `ea := signed(R[rs]) + simm` (R42), the exact integer. -/
def effectiveAddress (base : Word) (imm : Int) : Int := base.toInt + imm

/-- `ea32 := (R[rs] + sext_32(imm)) mod 2^32` (R42), the pattern an out-of-range error carries (R43). -/
def effectiveAddress32 (base : Word) (imm : Int) : Word := base + immWord imm

/-- `InRange(ea)` (R41): both bounds are checked; 256 is the first address above. -/
abbrev InRange (ea : Int) : Prop := 0 ≤ ea ∧ ea < (Config.memoryWords : Int)

/-- The word index an access reaches, or none when the effective address is out of range (R41 to R43): never wrapped,
masked or clamped. -/
def memIndex (base : Word) (imm : Int) : Option MemIndex :=
  if h : InRange (effectiveAddress base imm) then
    some ⟨(effectiveAddress base imm).toNat, by have h0 := h.1; have h1 : effectiveAddress base imm < 256 := h.2; omega⟩
  else none

end Sys2Proof.Machine
end

