-- ==== Sys2Proof/Machine/Alu.lean ====
section
/-! DEFINITION. ADD, SUB, AND, OR, XOR, ADDI (41_alu.md). All arithmetic wraps modulo 2^32 and no overflow is detected
(R100); the sources are read from the state before the write (R101); no error is possible. -/

namespace Sys2Proof.Machine

/-- R102: `R[rd] <- (R[rs] + R[rt]) mod 2^32`. -/
def execAdd (rs rt rd : RegIndex) (shamt : Fin 32) (s : State) : Host.Outcome State Fault Refusal :=
  .next (writeBack (.add rs rt rd shamt) rd (readReg rs s + readReg rt s) s)

/-- R103: `R[rd] <- (R[rs] - R[rt]) mod 2^32`, the first source minus the second. -/
def execSub (rs rt rd : RegIndex) (shamt : Fin 32) (s : State) : Host.Outcome State Fault Refusal :=
  .next (writeBack (.sub rs rt rd shamt) rd (readReg rs s - readReg rt s) s)

/-- R104: bitwise AND. -/
def execAnd (rs rt rd : RegIndex) (shamt : Fin 32) (s : State) : Host.Outcome State Fault Refusal :=
  .next (writeBack (.and rs rt rd shamt) rd (readReg rs s &&& readReg rt s) s)

/-- R105: bitwise OR. -/
def execOr (rs rt rd : RegIndex) (shamt : Fin 32) (s : State) : Host.Outcome State Fault Refusal :=
  .next (writeBack (.or rs rt rd shamt) rd (readReg rs s ||| readReg rt s) s)

/-- R106: bitwise exclusive OR. -/
def execXor (rs rt rd : RegIndex) (shamt : Fin 32) (s : State) : Host.Outcome State Fault Refusal :=
  .next (writeBack (.xor rs rt rd shamt) rd (readReg rs s ^^^ readReg rt s) s)

/-- R107: `R[rt] <- (R[rs] + sext_32(imm)) mod 2^32`; the destination is `rt` = field3 (R63, log entry 8). -/
def execAddi (rs rt : RegIndex) (imm : Int) (s : State) : Host.Outcome State Fault Refusal :=
  .next (writeBack (.addi rs rt imm) rt (readReg rs s + immWord imm) s)

end Sys2Proof.Machine
end

