-- ==== Sys2Proof/Machine/Flags.lean ====
section
/-! DEFINITION. The block has no status flags (10_state.md R25): no operation sets one. What it has instead is the register
comparator, whose verdict is an output of the step and not state (43_branch_compare.md R130). -/

namespace Sys2Proof.Machine

/-- BEQ's verdict (R131): equality of two 32-bit patterns. -/
def equalVerdict (a b : Word) : Bool := a == b

/-- BNE's verdict (R132). -/
def notEqualVerdict (a b : Word) : Bool := a != b

end Sys2Proof.Machine
end

