-- ==== Sys2Proof/Machine/Compare.lean ====
section
/-! DEFINITION. BEQ and BNE (43_branch_compare.md): a verdict is reported and nothing changes (R130); the immediate is
carried in the response and used by nothing (R68). -/

namespace Sys2Proof.Machine

/-- R131: taken iff the two registers hold equal patterns. -/
def execBeq (rs rt : RegIndex) (imm : Int) (s : State) : Host.Outcome State Fault Refusal :=
  .next (report (.beq rs rt imm) (.verdict (equalVerdict (readReg rs s) (readReg rt s))) s)

/-- R132: taken iff the two registers hold different patterns. -/
def execBne (rs rt : RegIndex) (imm : Int) (s : State) : Host.Outcome State Fault Refusal :=
  .next (report (.bne rs rt imm) (.verdict (notEqualVerdict (readReg rs s) (readReg rt s))) s)

end Sys2Proof.Machine
end

