-- ==== Sys2Proof/Machine/LoadStore.lean ====
section
/-! DEFINITION. LW and SW (42_load_store.md): base register plus signed word offset, checked before anything is read or
written (20_memory.md R41 to R43); out of range is a completed step that reports OutOfRangeAccess (60_exceptions.md R151). -/

namespace Sys2Proof.Machine

/-- The report of an access outside `[0, 256)` by instruction `i` (R43): nothing changes, the response carries `ea32`. -/
def raiseOutOfRange (i : Instr) (base : Word) (imm : Int) (s : State) : State :=
  raiseError (.done (fieldsOf i) (.known i) (.outOfRange (effectiveAddress32 base imm))) s

/-- R120: `R[rt] <- M[ea]`, or the error with `R[rt]` keeping its old value. -/
def execLw (rs rt : RegIndex) (imm : Int) (s : State) : Host.Outcome State Fault Refusal :=
  match memIndex (readReg rs s) imm with
  | some a => .next (writeBack (.lw rs rt imm) rt (memRead a s) s)
  | none   => .next (raiseOutOfRange (.lw rs rt imm) (readReg rs s) imm s)

/-- R121: `M[ea] <- R[rt]`, or the error with no word written. -/
def execSw (rs rt : RegIndex) (imm : Int) (s : State) : Host.Outcome State Fault Refusal :=
  match memIndex (readReg rs s) imm with
  | some a => .next (report (.sw rs rt imm) (.memWritten a (readReg rt s)) (memWrite a (readReg rt s) s))
  | none   => .next (raiseOutOfRange (.sw rs rt imm) (readReg rs s) imm s)

end Sys2Proof.Machine
end

