-- ==== Sys2Proof/Machine/Dispatch.lean ====
section
/-! DEFINITION. The dispatch into the ExecutionEngine, one arm per instruction (40_decode_pipeline.md R91). -/

namespace Sys2Proof.Machine

def exec (i : Instr) (s : State) : Host.Outcome State Fault Refusal :=
  match i with
  | .add rs rt rd shamt => Sys2Proof.Machine.execAdd rs rt rd shamt s
  | .sub rs rt rd shamt => Sys2Proof.Machine.execSub rs rt rd shamt s
  | .and rs rt rd shamt => Sys2Proof.Machine.execAnd rs rt rd shamt s
  | .or rs rt rd shamt => Sys2Proof.Machine.execOr rs rt rd shamt s
  | .xor rs rt rd shamt => Sys2Proof.Machine.execXor rs rt rd shamt s
  | .beq rs rt imm => Sys2Proof.Machine.execBeq rs rt imm s
  | .bne rs rt imm => Sys2Proof.Machine.execBne rs rt imm s
  | .addi rs rt imm => Sys2Proof.Machine.execAddi rs rt imm s
  | .lw rs rt imm => Sys2Proof.Machine.execLw rs rt imm s
  | .sw rs rt imm => Sys2Proof.Machine.execSw rs rt imm s

end Sys2Proof.Machine
end

