-- ==== Sys2Proof/Machine/Requests.lean ====
section
/-! DEFINITION. The two sides of the request interface: the caller's (submit, snapshot; 00_scope.md R6, R10, 10_state.md
R34) and the block's (take the next request, reject it, report an unknown word, idle; 00_scope.md R8). -/

namespace Sys2Proof.Machine

/-- The caller submits requests, in order, behind those not yet served (R6, R9). -/
def submit (reqs : List Request) (s : State) : State := { s with requests := s.requests ++ reqs }

/-- The caller submits `req` as the very next request. -/
def submitNext (req : Request) (s : State) : State := { s with requests := req :: s.requests }

/-- The caller reads the whole state (R34); nothing changes. -/
def snapshot (s : State) : Snapshot := { regs := s.regs, mem := Vector.ofFn (fun a => memRead a s) }

/-- The block accepts the oldest request, if there is one. -/
def takeRequest (s : State) : Option (Request × State) :=
  match s.requests with
  | []          => none
  | req :: rest => some (req, { s with requests := rest })

/-- R179: with no request the block does nothing and `S` holds its value (log entry 3). -/
def idle (s : State) : State := s

/-- R84: the request is rejected before any state change; no fields are reported. -/
def reject (e : DecodeError) (s : State) : State := raiseError (.rejected e) s

/-- R140: an unknown word is a completed step that reports its fields and the offending code and changes nothing. -/
def execUnknown (w : Word) (selector : Selector) (code : Fin 64) (s : State) : State :=
  raiseError (.done (extract w) (.unknown selector code) (.unrecognized selector code)) s

end Sys2Proof.Machine
end

