-- ==== Sys2Proof/Machine/Step.lean ====
section
/-! DEFINITION. One step of the machine: the block's `Step` on the oldest pending request (00_scope.md R8). It only calls
the decoder, the dispatch and the operations of Requests.lean. -/

namespace Sys2Proof.Machine

/-- R8: take a request, decode it, and reject it, report it as unknown, or execute it; with no request, idle (R179). -/
def step (s : State) : Host.Outcome State Fault Refusal :=
  match takeRequest s with
  | none => .next (idle s)
  | some (req, s1) =>
    match decodeRequest req with
    | .error e => .next (reject e s1)
    | .ok (w, .unknown selector code) => .next (execUnknown w selector code s1)
    | .ok (_, .known i) => exec i s1

/-- The caller submits, as the very next request, the word that spec/opcode_table.json numbers (log entry 4): the block
has no program counter and no instruction memory (R24, R29), and an instruction arrives as the request string (R7). -/
def State.withFetchWord (s : State) (nbits w : Nat) : State := submitNext (hexEncode (tableWord nbits w)) s

end Sys2Proof.Machine
end

