-- ==== Sys2Proof/Certificates/Slice0/Reference.lean ====
section
/-! DEFINITION. The spec's `Step` and `Run` (00_scope.md R8, R9) written a second time, straight from the pseudocode and in
plain number arithmetic over the state type of 10_state.md R20, so that the machine can be stated to refine it. It shares
with the model only the names of the values that pass through the interface (instruction, response). -/

namespace Sys2Proof.Reference

open Sys2Proof.Machine

/-- `S` of R20: `R` and `M`, and nothing else. -/
structure Arch where
  R : RegIndex → Word
  M : MemIndex → Word

/-- `HexVal` by the ASCII code points of R81's table. -/
def hexValue (c : Char) : Option Nat :=
  if 0x30 ≤ c.toNat ∧ c.toNat ≤ 0x39 then some (c.toNat - 0x30)
  else if 0x41 ≤ c.toNat ∧ c.toNat ≤ 0x46 then some (c.toNat - 0x41 + 10)
  else if 0x61 ≤ c.toNat ∧ c.toNat ≤ 0x66 then some (c.toNat - 0x61 + 10)
  else none

/-- `BitDecode` (R80), giving the word as a number. -/
def bitDecode (req : Request) : Except DecodeError Nat :=
  if req.length ≠ 8 then .error .invalidLength
  else if req.any (fun c => (hexValue c).isNone) then .error .invalidDigit
  else .ok (req.foldl (fun w c => 16 * w + (hexValue c).getD 0) 0)

/-- `Extract` (R87) by division. -/
def fields (w : Nat) : Fields :=
  { opcode    := BitVec.ofNat 6 (w / 2 ^ 26)
    field2    := BitVec.ofNat 5 (w / 2 ^ 21)
    field3    := BitVec.ofNat 5 (w / 2 ^ 16)
    field4    := BitVec.ofNat 5 (w / 2 ^ 11)
    field5    := BitVec.ofNat 5 (w / 2 ^ 6)
    field6    := BitVec.ofNat 6 w
    immediate := BitVec.ofNat 16 w }

/-- `signed(v)` (R12). -/
def signed (v : Word) : Int := if v.toNat < 2 ^ 31 then (v.toNat : Int) else (v.toNat : Int) - 2 ^ 32

/-- `simm` of a word (R65). -/
def simmOf (w : Nat) : Int :=
  if w % 65536 < 32768 then ((w % 65536 : Nat) : Int) else ((w % 65536 : Nat) : Int) - 65536

def rsOf (w : Nat) : RegIndex := Fin.ofNat 32 (w / 2 ^ 21)
def rtOf (w : Nat) : RegIndex := Fin.ofNat 32 (w / 2 ^ 16)
def rdOf (w : Nat) : RegIndex := Fin.ofNat 32 (w / 2 ^ 11)
def shamtOf (w : Nat) : Fin 32 := Fin.ofNat 32 (w / 2 ^ 6)

/-- `R[rd] <- v; report RegWritten(rd, v)`. -/
def setReg (S : Arch) (w : Nat) (i : Instr) (rd : RegIndex) (v : Word) : Arch × Response :=
  ({ S with R := fun r => if r = rd then v else S.R r }, .done (fields w) (.known i) (.regWritten rd v))

/-- R102 to R106: the result is `op` of the two source patterns, modulo 2^32. -/
def registerForm (S : Arch) (w : Nat) (make : RegIndex → RegIndex → RegIndex → Fin 32 → Instr)
    (op : Nat → Nat → Nat) : Arch × Response :=
  setReg S w (make (rsOf w) (rtOf w) (rdOf w) (shamtOf w)) (rdOf w)
    (BitVec.ofNat 32 (op (S.R (rsOf w)).toNat (S.R (rtOf w)).toNat))

/-- R107. -/
def addi (S : Arch) (w : Nat) : Arch × Response :=
  setReg S w (.addi (rsOf w) (rtOf w) (simmOf w)) (rtOf w) (BitVec.ofInt 32 (signed (S.R (rsOf w)) + simmOf w))

/-- R42. -/
def ea (S : Arch) (w : Nat) : Int := signed (S.R (rsOf w)) + simmOf w

/-- R43, R151: `raise OutOfRangeAccess(ea32)`. -/
def outOfRange (S : Arch) (w : Nat) (i : Instr) : Arch × Response :=
  (S, .done (fields w) (.known i) (.outOfRange (BitVec.ofInt 32 (ea S w))))

/-- R120. -/
def lw (S : Arch) (w : Nat) : Arch × Response :=
  if 0 ≤ ea S w ∧ ea S w < 256 then
    setReg S w (.lw (rsOf w) (rtOf w) (simmOf w)) (rtOf w) (S.M (Fin.ofNat 256 (ea S w).toNat))
  else outOfRange S w (.lw (rsOf w) (rtOf w) (simmOf w))

/-- R121. -/
def sw (S : Arch) (w : Nat) : Arch × Response :=
  if 0 ≤ ea S w ∧ ea S w < 256 then
    ({ S with M := fun a => if a = Fin.ofNat 256 (ea S w).toNat then S.R (rtOf w) else S.M a },
     .done (fields w) (.known (.sw (rsOf w) (rtOf w) (simmOf w)))
       (.memWritten (Fin.ofNat 256 (ea S w).toNat) (S.R (rtOf w))))
  else outOfRange S w (.sw (rsOf w) (rtOf w) (simmOf w))

/-- R131, R132: `report Verdict(taken)`, `S` unchanged. -/
def verdict (S : Arch) (w : Nat) (i : Instr) (taken : Bool) : Arch × Response :=
  (S, .done (fields w) (.known i) (.verdict taken))

/-- R140: `raise UnknownInstruction(selector, code)`. -/
def unknown (S : Arch) (w : Nat) (selector : Selector) (code : Nat) : Arch × Response :=
  (S, .done (fields w) (.unknown selector (Fin.ofNat 64 code)) (.unrecognized selector (Fin.ofNat 64 code)))

/-- `Classify` and `Execute` on a decoded word (R88, R91). -/
def execute (S : Arch) (w : Nat) : Arch × Response :=
  if w / 2 ^ 26 = 0 then
    if w % 64 = 32 then registerForm S w .add (fun a b => a + b)
    else if w % 64 = 34 then registerForm S w .sub (fun a b => a + (2 ^ 32 - b))
    else if w % 64 = 36 then registerForm S w .and (fun a b => a &&& b)
    else if w % 64 = 37 then registerForm S w .or (fun a b => a ||| b)
    else if w % 64 = 38 then registerForm S w .xor (fun a b => a ^^^ b)
    else unknown S w .function (w % 64)
  else if w / 2 ^ 26 = 8 then addi S w
  else if w / 2 ^ 26 = 35 then lw S w
  else if w / 2 ^ 26 = 43 then sw S w
  else if w / 2 ^ 26 = 4 then
    verdict S w (.beq (rsOf w) (rtOf w) (simmOf w)) (decide (S.R (rsOf w) = S.R (rtOf w)))
  else if w / 2 ^ 26 = 5 then
    verdict S w (.bne (rsOf w) (rtOf w) (simmOf w)) (decide (S.R (rsOf w) ≠ S.R (rtOf w)))
  else unknown S w .opcode (w / 2 ^ 26)

/-- `Step(S, req) -> (S', resp)` (R8). -/
def step (S : Arch) (req : Request) : Arch × Response :=
  match bitDecode req with
  | .error e => (S, .rejected e)
  | .ok w    => execute S w

/-- `Run(S, reqs)` (R9). -/
def run (S : Arch) : List Request → Arch × List Response
  | []          => (S, [])
  | req :: rest => ((run (step S req).1 rest).1, (step S req).2 :: (run (step S req).1 rest).2)

end Sys2Proof.Reference
end

