-- ==== Sys2Proof/Machine/Errors.lean ====
section
/-! DEFINITION. Reading a response: its error kind and status number (60_exceptions.md R151; log entry 11) and its
trace text (30_encoding.md R73; log entry 13). No rule of the machine reads these. -/

namespace Sys2Proof.Machine

/-- The error kind a response carries, if any (R151). -/
def errorKindOf : Response → Option ErrorKind
  | .rejected .invalidLength                 => some .invalidLength
  | .rejected .invalidDigit                  => some .invalidDigit
  | .done _ _ (.unrecognized selector code)  => some (.unknownInstruction selector code)
  | .done _ _ (.outOfRange ea32)             => some (.outOfRangeAccess ea32)
  | .done _ _ (.regWritten _ _)              => none
  | .done _ _ (.memWritten _ _)              => none
  | .done _ _ (.verdict _)                   => none

/-- The status number of a response (R151): 0 for no error, then the four kinds in the document's order. -/
def statusOf (r : Response) : Nat :=
  match errorKindOf r with
  | none                          => 0
  | some .invalidLength           => 1
  | some .invalidDigit            => 2
  | some (.unknownInstruction _ _) => 3
  | some (.outOfRangeAccess _)    => 4

/-! ## Trace text -/

/-- A natural number in decimal digits. -/
def decimalText (n : Nat) : List Char := Nat.toDigits 10 n

/-- A signed number in decimal digits. -/
def signedText (k : Int) : List Char :=
  if k < 0 then '-' :: decimalText k.natAbs else decimalText k.natAbs

/-- `$` and the decimal index (R21, R73). -/
def registerText (r : RegIndex) : List Char := '$' :: decimalText r.val

/-- Operands separated by a comma and a space (R73). -/
def operandsText : List (List Char) → List Char
  | []           => []
  | [x]          => x
  | x :: y :: zs => x ++ [',', ' '] ++ operandsText (y :: zs)

/-- Destination, first source, second source (R73). -/
def registerFormText (name : List Char) (rs rt rd : RegIndex) : List Char :=
  name ++ ' ' :: operandsText [registerText rd, registerText rs, registerText rt]

/-- The memory form `simm($rs)`, in words (R73). -/
def addressText (rs : RegIndex) (imm : Int) : List Char := signedText imm ++ '(' :: registerText rs ++ [')']

/-- The human-readable text of an instruction (R73's table). -/
def instrText : Instr → List Char
  | .add rs rt rd _ => registerFormText ['a', 'd', 'd'] rs rt rd
  | .sub rs rt rd _ => registerFormText ['s', 'u', 'b'] rs rt rd
  | .and rs rt rd _ => registerFormText ['a', 'n', 'd'] rs rt rd
  | .or  rs rt rd _ => registerFormText ['o', 'r'] rs rt rd
  | .xor rs rt rd _ => registerFormText ['x', 'o', 'r'] rs rt rd
  | .beq  rs rt imm => ['b', 'e', 'q', ' '] ++ operandsText [registerText rs, registerText rt, signedText imm]
  | .bne  rs rt imm => ['b', 'n', 'e', ' '] ++ operandsText [registerText rs, registerText rt, signedText imm]
  | .addi rs rt imm => ['a', 'd', 'd', 'i', ' '] ++ operandsText [registerText rt, registerText rs, signedText imm]
  | .lw   rs rt imm => ['l', 'w', ' '] ++ operandsText [registerText rt, addressText rs imm]
  | .sw   rs rt imm => ['s', 'w', ' '] ++ operandsText [registerText rt, addressText rs imm]

/-- The word whose slices the fields are (R87: "`Extract` loses nothing"). -/
def joinFields (f : Fields) : Word :=
  (f.opcode ++ f.field2 ++ f.field3 ++ f.immediate : BitVec (6 + 5 + 5 + 16))

/-- The trace text of a response that decoded something: the instruction's text, for an unknown word its hexadecimal
digits (R73). A rejected request has none. -/
def traceText : Response → List Char
  | .rejected _            => []
  | .done _ (.known i) _   => instrText i
  | .done f (.unknown _ _) _ => hexEncode (joinFields f)

end Sys2Proof.Machine
end

