-- ==== Sys2Proof/Safety.lean ====
section
/-! DEFINITION. The terms the statements are written in: the invariant of the machine, what a step leaves unchanged, and
which registers an instruction names. -/

namespace Sys2Proof.Machine

/-- The invariant every step keeps: the memory is in its canonical form, so equal memories are equal data. -/
abbrev Inv (s : State) : Prop := Memory.wf s.mem

/-- `S' = S`: each of the 32 registers and each of the 256 memory words is as before (R32, R153). -/
def SameArch (s t : State) : Prop :=
  (∀ r : RegIndex, readReg r t = readReg r s) ∧ ∀ a : MemIndex, memRead a t = memRead a s

/-- Register `rd` holds `v`, every other register and every memory word is as before. -/
def OnlyRegister (rd : RegIndex) (v : Word) (s t : State) : Prop :=
  readReg rd t = v ∧ (∀ r : RegIndex, r ≠ rd → readReg r t = readReg r s) ∧
    ∀ a : MemIndex, memRead a t = memRead a s

/-- Memory word `a` holds `v`, every other memory word and every register is as before. -/
def OnlyMemWord (a : MemIndex) (v : Word) (s t : State) : Prop :=
  memRead a t = v ∧ (∀ b : MemIndex, b ≠ a → memRead b t = memRead b s) ∧
    ∀ r : RegIndex, readReg r t = readReg r s

/-- Exactly the response `r` is added, and no pending request is taken or added. -/
def Responds (r : Response) (s t : State) : Prop :=
  t.requests = s.requests ∧ t.responses = s.responses ++ [r]

/-- The registers an instruction reads (R22). -/
def sourcesOf : Instr → List RegIndex
  | .add rs rt _ _ => [rs, rt]
  | .sub rs rt _ _ => [rs, rt]
  | .and rs rt _ _ => [rs, rt]
  | .or  rs rt _ _ => [rs, rt]
  | .xor rs rt _ _ => [rs, rt]
  | .beq  rs rt _ => [rs, rt]
  | .bne  rs rt _ => [rs, rt]
  | .addi rs _ _ => [rs]
  | .lw   rs _ _ => [rs]
  | .sw   rs rt _ => [rs, rt]

/-- The register an instruction may write (R22). -/
def destOf : Instr → Option RegIndex
  | .add _ _ rd _ => some rd
  | .sub _ _ rd _ => some rd
  | .and _ _ rd _ => some rd
  | .or  _ _ rd _ => some rd
  | .xor _ _ rd _ => some rd
  | .beq  _ _ _ => none
  | .bne  _ _ _ => none
  | .addi _ rt _ => some rt
  | .lw   _ rt _ => some rt
  | .sw   _ _ _ => none

/-- What word `a` holds after the stores that `responses` report, in order, if it held `start` before (R50). -/
def lastStored (a : MemIndex) (start : Word) : List Response → Word
  | [] => start
  | .done _ _ (.memWritten b v) :: rest => lastStored a (if b = a then v else start) rest
  | _ :: rest => lastStored a start rest

/-- What register `r` holds after the register writes that `responses` report, in order, if it held `start` before. -/
def lastWritten (r : RegIndex) (start : Word) : List Response → Word
  | [] => start
  | .done _ _ (.regWritten q v) :: rest => lastWritten r (if q = r then v else start) rest
  | _ :: rest => lastWritten r start rest

end Sys2Proof.Machine
end

