-- ==== Sys2Proof/Certificates/Slice0/Obligations.lean ====
section
/-! DEFINITION. The statements for the provers, each `def Obligations.<Name> : Prop`; OBLIGATIONS.json lists them. Each
docstring names the rule or section of the spec it formalises. `SameArch`, `OnlyRegister`, `OnlyMemWord`, `Responds` are
defined in Safety.lean. -/

open Sys2Proof Sys2Proof.Machine

/-! ## Terms of the statements -/

/-- `000000 sssss ttttt ddddd hhhhh ffffff` (R62). -/
def Sys2Proof.Machine.registerWord (rs rt rd : RegIndex) (shamt : Fin 32) (funct : BitVec 6) : Word :=
  (0b000000#6 ++ BitVec.ofNat 5 rs.val ++ BitVec.ofNat 5 rt.val ++ BitVec.ofNat 5 rd.val ++
    BitVec.ofNat 5 shamt.val ++ funct : BitVec (6 + 5 + 5 + 5 + 5 + 6))

/-- `oooooo sssss ttttt iiiiiiiiiiiiiiii` (R63). -/
def Sys2Proof.Machine.immediateWord (opcode : BitVec 6) (rs rt : RegIndex) (imm : BitVec 16) : Word :=
  (opcode ++ BitVec.ofNat 5 rs.val ++ BitVec.ofNat 5 rt.val ++ imm : BitVec (6 + 5 + 5 + 16))

/-- The 22 hexadecimal digit characters with their values (R81's table). -/
def Sys2Proof.Machine.hexTable : List (Char × Nat) :=
  [('0', 0), ('1', 1), ('2', 2), ('3', 3), ('4', 4), ('5', 5), ('6', 6), ('7', 7), ('8', 8), ('9', 9)] ++
  [('A', 10), ('B', 11), ('C', 12), ('D', 13), ('E', 14), ('F', 15)] ++
  [('a', 10), ('b', 11), ('c', 12), ('d', 13), ('e', 14), ('f', 15)]

/-- The architectural state of the machine as R20's pair of arrays. -/
def Sys2Proof.Machine.archOf (s : State) : Reference.Arch :=
  { R := fun r => readReg r s, M := fun a => memRead a s }

/-! ## Reset and the invariant -/

/-- 10_state.md section 9, 70_reset_and_hazards.md section 1 (decision D4, log entry 6): every register and every memory
word holds its own index. The two empty lists are the model's choice (log entries 1, 2). -/
def Obligations.ResetIsTheSeed : Prop :=
  (∀ r : RegIndex, readReg r State.reset = BitVec.ofNat 32 r.val) ∧
  (∀ a : MemIndex, memRead a State.reset = BitVec.ofNat 32 a.val) ∧
  State.reset.requests = [] ∧ State.reset.responses = []

/-- The invariant of `StepKeepsCanonicalMemory` holds at reset. -/
def Obligations.ResetHasCanonicalMemory : Prop := Inv State.reset

/-- Every step, from any state with a canonical memory, leaves a canonical memory (the model's form of `M`, log entry 5). -/
def Obligations.StepKeepsCanonicalMemory : Prop :=
  ∀ s t : State, Inv s → step s = .next t → Inv t

/-- 10_state.md section 1: the 288 words are the whole state. Two canonical states with the same snapshot and the same two
environment lists are the same state. -/
def Obligations.SnapshotDeterminesState : Prop :=
  ∀ s t : State, Inv s → Inv t → snapshot s = snapshot t → s.requests = t.requests → s.responses = t.responses → s = t

/-- 10_state.md section 10, the snapshot (decision D16): it shows every register and every memory word. -/
def Obligations.SnapshotShowsEveryWord : Prop :=
  ∀ s : State, (∀ r : RegIndex, (snapshot s).regs[r] = readReg r s) ∧
    ∀ a : MemIndex, (snapshot s).mem[a] = memRead a s

/-! ## The decoder -/

/-- Sanity: words written out from the spec's encodings (95_test_vectors.md) decode to their instructions. -/
def Obligations.WrittenWordsDecode : Prop :=
  decodeTableWord 32 0b00000000001001000010100000100000 = some (.add 1 4 5 0) ∧
  decodeTableWord 32 0b00000000111001110011111111100000 = some (.add 7 7 7 31) ∧
  decodeTableWord 32 0b00000001000010100100100000100010 = some (.sub 8 10 9 0) ∧
  decodeTableWord 32 0b00100001010010011111111111111011 = some (.addi 10 9 (-5)) ∧
  decodeTableWord 32 0b10001100010010000000000100101100 = some (.lw 2 8 300) ∧
  decodeTableWord 32 0b10101100001001111111111110011011 = some (.sw 1 7 (-101)) ∧
  decodeTableWord 32 0b00010010001101000101011001111000 = some (.beq 17 20 22136) ∧
  decodeTableWord 32 0b10000000000000000000000000100000 = none ∧
  decodeTableWord 32 0 = none

/-- R82: `InvalidLength` is raised exactly when the length is not 8, and the step then changes no word. -/
def Obligations.LengthErrorExactly : Prop :=
  ∀ req : Request,
    (bitDecode req = .error .invalidLength ↔ req.length ≠ 8) ∧
    ∀ (s : State) (rest : List Request), s.requests = req :: rest → req.length ≠ 8 →
      ∃ t : State, step s = .next t ∧ SameArch s t ∧ t.requests = rest ∧
        t.responses = s.responses ++ [.rejected .invalidLength]

/-- 40_decode_pipeline.md section 1: `InvalidDigit` is raised exactly when the length is 8 and some character is none of
the 22 hexadecimal digits. That only strings of length 8 get it is the spec's decision D3 (log entry 9). -/
def Obligations.DigitErrorExactly : Prop :=
  ∀ req : Request,
    (bitDecode req = .error .invalidDigit ↔ req.length = 8 ∧ ∃ c ∈ req, c ∉ hexTable.map Prod.fst) ∧
    ∀ (s : State) (rest : List Request), s.requests = req :: rest → req.length = 8 →
      (∃ c ∈ req, c ∉ hexTable.map Prod.fst) →
      ∃ t : State, step s = .next t ∧ SameArch s t ∧ t.requests = rest ∧
        t.responses = s.responses ++ [.rejected .invalidDigit]

/-- R84: after a decode failure nothing is extracted, classified or executed: the response is `Rejected(e)`, which carries
no field, no word has changed, and the later requests are served as they were. -/
def Obligations.DecodeFailureRejects : Prop :=
  ∀ (s : State) (req : Request) (rest : List Request) (e : DecodeError), s.requests = req :: rest →
    bitDecode req = .error e → step s = .next { s with requests := rest, responses := s.responses ++ [.rejected e] }

/-- R81: the digit values, upper and lower case alike and no other character, and the word as the digits in input order,
the first most significant. Characters are abstract symbols here; no character code is used (log entry 10). -/
def Obligations.DigitsMakeTheWord : Prop :=
  (∀ (c : Char) (d : BitVec 4), hexVal c = some d ↔ (c, d.toNat) ∈ hexTable) ∧
  ∀ (req : Request) (w : Word), bitDecode req = .ok w ↔
    ∃ (c0 c1 c2 c3 c4 c5 c6 c7 : Char) (d0 d1 d2 d3 d4 d5 d6 d7 : BitVec 4),
      req = [c0, c1, c2, c3, c4, c5, c6, c7] ∧
      hexVal c0 = some d0 ∧ hexVal c1 = some d1 ∧ hexVal c2 = some d2 ∧ hexVal c3 = some d3 ∧
      hexVal c4 = some d4 ∧ hexVal c5 = some d5 ∧ hexVal c6 = some d6 ∧ hexVal c7 = some d7 ∧
      w.toNat = d0.toNat * 16 ^ 7 + d1.toNat * 16 ^ 6 + d2.toNat * 16 ^ 5 + d3.toNat * 16 ^ 4 +
        d4.toNat * 16 ^ 3 + d5.toNat * 16 ^ 2 + d6.toNat * 16 + d7.toNat

/-- The round-trip law (40_decode_pipeline.md section 1, 95_test_vectors.md S-RT): decoding the hexadecimal digits of a
word gives the word, re-encoding a decoded string gives it in upper case, and two valid strings give the same word exactly
when they differ only in letter case. -/
def Obligations.HexRoundTrip : Prop :=
  (∀ w : Word, bitDecode (hexEncode w) = .ok w) ∧
  (∀ (req : Request) (w : Word), bitDecode req = .ok w → hexEncode w = req.map Char.toUpper) ∧
  ∀ (req req' : Request) (w w' : Word), bitDecode req = .ok w → bitDecode req' = .ok w' →
    (w = w' ↔ req.map Char.toUpper = req'.map Char.toUpper)

/-- R61, R87: where the seven slices stand, and that nothing is lost. -/
def Obligations.ExtractSlices : Prop :=
  ∀ w : Word,
    (extract w).opcode.toNat = w.toNat / 2 ^ 26 ∧
    (extract w).field2.toNat = w.toNat / 2 ^ 21 % 32 ∧
    (extract w).field3.toNat = w.toNat / 2 ^ 16 % 32 ∧
    (extract w).field4.toNat = w.toNat / 2 ^ 11 % 32 ∧
    (extract w).field5.toNat = w.toNat / 2 ^ 6 % 32 ∧
    (extract w).field6.toNat = w.toNat % 64 ∧
    (extract w).immediate.toNat = w.toNat % 65536 ∧
    (extract w).immediate.toNat =
      (extract w).field4.toNat * 2048 + (extract w).field5.toNat * 64 + (extract w).field6.toNat ∧
    w = ((extract w).opcode ++ (extract w).field2 ++ (extract w).field3 ++ (extract w).field4 ++
      (extract w).field5 ++ (extract w).field6 : BitVec (6 + 5 + 5 + 5 + 5 + 6)) ∧
    w = ((extract w).opcode ++ (extract w).field2 ++ (extract w).field3 ++ (extract w).immediate :
      BitVec (6 + 5 + 5 + 16))

/-- R65: the sign extension of the 16-bit immediate, its range, its 32-bit pattern, and that all five immediate-form
instructions carry it sign-extended. -/
def Obligations.ImmediateSignExtension : Prop :=
  ∀ imm : BitVec 16,
    (imm.toNat < 32768 → simm imm = (imm.toNat : Int) ∧ (immWord (simm imm)).toNat = imm.toNat) ∧
    (32768 ≤ imm.toNat →
      simm imm = (imm.toNat : Int) - 65536 ∧ (immWord (simm imm)).toNat = imm.toNat + 0xFFFF0000) ∧
    -32768 ≤ simm imm ∧ simm imm ≤ 32767 ∧ immWord (simm imm) = imm.signExtend 32 ∧
    ∀ (w : Word) (rs rt : RegIndex) (k : Int), (extract w).immediate = imm →
      (∃ i ∈ [Instr.addi rs rt k, .lw rs rt k, .sw rs rt k, .beq rs rt k, .bne rs rt k],
        classify (extract w) = .known i) → k = simm imm

/-- R66, R67: a word is the instruction of a row exactly when `w & mask = match`. -/
def Obligations.TableRowsSelect : Prop :=
  ∀ w : Word,
    (w &&& 0xFC00003F#32 = 0x00000020#32 ↔ ∃ rs rt rd sh, classify (extract w) = .known (.add rs rt rd sh)) ∧
    (w &&& 0xFC00003F#32 = 0x00000022#32 ↔ ∃ rs rt rd sh, classify (extract w) = .known (.sub rs rt rd sh)) ∧
    (w &&& 0xFC00003F#32 = 0x00000024#32 ↔ ∃ rs rt rd sh, classify (extract w) = .known (.and rs rt rd sh)) ∧
    (w &&& 0xFC00003F#32 = 0x00000025#32 ↔ ∃ rs rt rd sh, classify (extract w) = .known (.or rs rt rd sh)) ∧
    (w &&& 0xFC00003F#32 = 0x00000026#32 ↔ ∃ rs rt rd sh, classify (extract w) = .known (.xor rs rt rd sh)) ∧
    (w &&& 0xFC000000#32 = 0x10000000#32 ↔ ∃ rs rt imm, classify (extract w) = .known (.beq rs rt imm)) ∧
    (w &&& 0xFC000000#32 = 0x14000000#32 ↔ ∃ rs rt imm, classify (extract w) = .known (.bne rs rt imm)) ∧
    (w &&& 0xFC000000#32 = 0x20000000#32 ↔ ∃ rs rt imm, classify (extract w) = .known (.addi rs rt imm)) ∧
    (w &&& 0xFC000000#32 = 0x8C000000#32 ↔ ∃ rs rt imm, classify (extract w) = .known (.lw rs rt imm)) ∧
    (w &&& 0xFC000000#32 = 0xAC000000#32 ↔ ∃ rs rt imm, classify (extract w) = .known (.sw rs rt imm))

/-- R69, R140: which words are unknown, what code they carry, and that an unknown word is a completed step that changes no
word, reports the seven fields and the code, and leaves the later requests to be served. The selector beside the code is
the spec's decision D11 (log entry 11). -/
def Obligations.UnknownInstructionReported : Prop :=
  ∀ (w : Word) (code : Fin 64),
    (classify (extract w) = .unknown .function code ↔
      w.toNat / 2 ^ 26 = 0 ∧ code.val = w.toNat % 64 ∧ code.val ∉ [32, 34, 36, 37, 38]) ∧
    (classify (extract w) = .unknown .opcode code ↔
      code.val = w.toNat / 2 ^ 26 ∧ code.val ∉ [0, 4, 5, 8, 35, 43]) ∧
    ∀ (s : State) (req : Request) (rest : List Request) (selector : Selector),
      s.requests = req :: rest → bitDecode req = .ok w → classify (extract w) = .unknown selector code →
      step s = .next { s with
        requests := rest
        responses := s.responses ++
          [.done (extract w) (.unknown selector code) (.unrecognized selector code)] }

/-- Decode and encode agree, one direction (30_encoding.md section 5): the request made from any well-formed instruction
decodes to it, with every operand. -/
def Obligations.DecodeOfEncode : Prop :=
  ∀ i : Instr, WellFormed i = true → decodeRequest (encodeRequest i) = .ok (encode i, .known i)

/-- Decode and encode agree, the other direction (30_encoding.md section 5, 40_decode_pipeline.md section 2): an
instruction decoded from a request is well formed, encodes to the request's word and carries its seven slices, and the
request is its encoding but for letter case. -/
def Obligations.EncodeOfDecode : Prop :=
  ∀ (req : Request) (w : Word) (i : Instr), decodeRequest req = .ok (w, .known i) →
    WellFormed i = true ∧ encode i = w ∧ fieldsOf i = extract w ∧ encodeRequest i = req.map Char.toUpper

/-! ## The step -/

/-- 00_scope.md section 6: a step runs the decoded instruction on the state from which the request has been taken. -/
def Obligations.StepRunsDecodedInstruction : Prop :=
  ∀ (s : State) (req : Request) (rest : List Request) (w : Word) (i : Instr),
    s.requests = req :: rest → bitDecode req = .ok w → classify (extract w) = .known i →
    WellFormed i = true ∧ step s = exec i { s with requests := rest }

/-- 70_reset_and_hazards.md section 4, Idle (log entry 3): with no request pending, the state holds. -/
def Obligations.IdleHoldsState : Prop := ∀ s : State, s.requests = [] → step s = .next s

/-- 60_exceptions.md section 1, 70_reset_and_hazards.md section 4: a step always completes. It never stops the machine, and
a pending request is taken and answered by exactly one response. -/
def Obligations.EveryRequestIsAnswered : Prop :=
  ∀ s : State, ∃ t : State, step s = .next t ∧
    ∀ (req : Request) (rest : List Request), s.requests = req :: rest →
      t.requests = rest ∧ ∃ r : Response, t.responses = s.responses ++ [r]

/-- 00_scope.md section 6: the step of the machine is the spec's `Step` (Reference.lean, written from its pseudocode) on
the 288 words and the response. It rests on the spec's decisions D3, D5, D6, D8, D11 (log entries 7, 8, 9, 11, 12). -/
def Obligations.StepIsTheSpecStep : Prop :=
  ∀ (s : State) (req : Request) (rest : List Request), s.requests = req :: rest →
    ∃ t : State, step s = .next t ∧ archOf t = (Reference.step (archOf s) req).1 ∧
      t.responses = s.responses ++ [(Reference.step (archOf s) req).2] ∧ t.requests = rest

/-- 00_scope.md section 6, the run (and 70_reset_and_hazards.md section 4: "a finite request list always yields a finite
run with one response per request"): as many steps as there are requests serve them all, never stop, and give the spec's
`Run`. -/
def Obligations.RunIsTheSpecRun : Prop :=
  ∀ s : State, ∃ t : State, core.run s.requests.length s = .next t ∧ t.requests = [] ∧
    archOf t = (Reference.run (archOf s) s.requests).1 ∧
    t.responses = s.responses ++ (Reference.run (archOf s) s.requests).2 ∧
    (Reference.run (archOf s) s.requests).2.length = s.requests.length

/-- 40_decode_pipeline.md sections 3 and 4: the response to a request that decodes carries the seven slices of its word and
its classified instruction, whatever the state. -/
def Obligations.ResponseCarriesFields : Prop :=
  ∀ (s : State) (req : Request) (rest : List Request) (w : Word), s.requests = req :: rest → bitDecode req = .ok w →
    ∃ (t : State) (o : StepOutcome), step s = .next t ∧
      t.responses = s.responses ++ [.done (extract w) (classify (extract w)) o]

/-- R32: one step changes at most one word, only for the eight instructions, the seven first a register (their
destination) and SW the memory word at its effective address; a rejected or unknown request, BEQ, BNE and an access out of range change none. -/
def Obligations.OneWordPerStep : Prop :=
  ∀ s t : State, step s = .next t →
    SameArch s t ∨
    ∃ (req : Request) (rest : List Request) (w : Word) (i : Instr),
      s.requests = req :: rest ∧ bitDecode req = .ok w ∧ classify (extract w) = .known i ∧
      (∀ rs rt imm, i = .lw rs rt imm ∨ i = .sw rs rt imm → InRange ((readReg rs s).toInt + imm)) ∧
      ((∃ (rd : RegIndex) (v : Word), destOf i = some rd ∧ OnlyRegister rd v s t) ∨
       (∃ (a : MemIndex) (rs rt : RegIndex) (imm : Int), i = .sw rs rt imm ∧
          effectiveAddress (readReg rs s) imm = (a.val : Int) ∧ OnlyMemWord a (readReg rt s) s t))

/-- 20_memory.md section 4, 10_state.md section 10: over any number of steps from any state, every memory word and every
register holds what the latest response that reports writing it says, or its old value if there is none. -/
def Obligations.ResponsesDetermineState : Prop :=
  ∀ (n : Nat) (s t : State), core.run n s = .next t →
    ∃ new : List Response, t.responses = s.responses ++ new ∧
      (∀ a : MemIndex, memRead a t = lastStored a (memRead a s) new) ∧
      ∀ r : RegIndex, readReg r t = lastWritten r (readReg r s) new

/-- What a response reports as written stands there after the step, register 0 included (10_state.md section 2, decision
D5; 40_decode_pipeline.md section 4). -/
def Obligations.ReportedWriteIsTrue : Prop :=
  ∀ (s t : State) (f : Fields) (c : Classified), step s = .next t →
    (∀ (rd : RegIndex) (v : Word), t.responses = s.responses ++ [.done f c (.regWritten rd v)] →
      OnlyRegister rd v s t) ∧
    ∀ (a : MemIndex) (v : Word), t.responses = s.responses ++ [.done f c (.memWritten a v)] →
      OnlyMemWord a v s t

/-! ## Errors -/

/-- R153: a step whose response carries an error changes no word, saves nothing and takes only its request. -/
def Obligations.ErrorsChangeNothing : Prop :=
  ∀ (s t : State) (r : Response), step s = .next t → t.responses = s.responses ++ [r] → errorKindOf r ≠ none →
    ∃ (req : Request) (rest : List Request), s.requests = req :: rest ∧
      t = { s with requests := rest, responses := s.responses ++ [r] }

/-- 60_exceptions.md sections 2 and 3 (status numbers by decision D9, log entry 11): which error each request gets, decided
stage by stage, and, beside that, what the two later errors carry (decision D11). -/
def Obligations.ErrorKindByStage : Prop :=
  ∀ (s t : State) (req : Request) (rest : List Request) (r : Response),
    s.requests = req :: rest → step s = .next t → t.responses = s.responses ++ [r] →
    (statusOf r = 1 ↔ req.length ≠ 8) ∧
    (statusOf r = 2 ↔ req.length = 8 ∧ ∃ c ∈ req, hexVal c = none) ∧
    (statusOf r = 3 ↔ ∃ (w : Word) (selector : Selector) (code : Fin 64),
      bitDecode req = .ok w ∧ classify (extract w) = .unknown selector code) ∧
    (statusOf r = 4 ↔ ∃ (w : Word) (rs rt : RegIndex) (imm : Int), bitDecode req = .ok w ∧
      (classify (extract w) = .known (.lw rs rt imm) ∨ classify (extract w) = .known (.sw rs rt imm)) ∧
      ((readReg rs s).toInt + imm < 0 ∨ 256 ≤ (readReg rs s).toInt + imm)) ∧
    statusOf r ≤ 4 ∧
    (∀ (w : Word) (selector : Selector) (code : Fin 64),
      bitDecode req = .ok w → classify (extract w) = .unknown selector code →
      errorKindOf r = some (.unknownInstruction selector code)) ∧
    ∀ (w : Word) (rs rt : RegIndex) (imm : Int), bitDecode req = .ok w →
      (classify (extract w) = .known (.lw rs rt imm) ∨ classify (extract w) = .known (.sw rs rt imm)) →
      ((readReg rs s).toInt + imm < 0 ∨ 256 ≤ (readReg rs s).toInt + imm) →
      errorKindOf r = some (.outOfRangeAccess (BitVec.ofInt 32 ((readReg rs s).toInt + imm)))

/-- 60_exceptions.md section 4, no stickiness: no step reads the earlier responses. -/
def Obligations.ResponsesAreNeverRead : Prop :=
  ∀ (s t : State) (earlier : List Response) (new : List Response),
    step s = .next t → t.responses = s.responses ++ new →
    step { s with responses := earlier } = .next { t with responses := earlier ++ new }

/-- 00_scope.md section 6: the block never looks at a request that is not yet its turn, so requests submitted later change
nothing of this step. -/
def Obligations.LaterRequestsAreNotRead : Prop :=
  ∀ (s t : State) (later : List Request), s.requests ≠ [] → step s = .next t →
    step (submit later s) = .next (submit later t)

/-! ## The ALU -/

/-- R102: ADD. -/
def Obligations.AddWritesSum : Prop :=
  ∀ (rs rt rd : RegIndex) (sh : Fin 32),
    let w := registerWord rs rt rd sh 0b100000#6
    classify (extract w) = .known (.add rs rt rd sh) ∧
    ∀ s : State, ∃ (t : State) (v : Word), exec (.add rs rt rd sh) s = .next t ∧
      v.toNat = ((readReg rs s).toNat + (readReg rt s).toNat) % 2 ^ 32 ∧ OnlyRegister rd v s t ∧
      Responds (.done (extract w) (.known (.add rs rt rd sh)) (.regWritten rd v)) s t

/-- R103: SUB, the first source minus the second. -/
def Obligations.SubWritesDifference : Prop :=
  ∀ (rs rt rd : RegIndex) (sh : Fin 32),
    let w := registerWord rs rt rd sh 0b100010#6
    classify (extract w) = .known (.sub rs rt rd sh) ∧
    ∀ s : State, ∃ (t : State) (v : Word), exec (.sub rs rt rd sh) s = .next t ∧
      (v.toNat : Int) = (((readReg rs s).toNat : Int) - ((readReg rt s).toNat : Int)) % 2 ^ 32 ∧
      OnlyRegister rd v s t ∧
      Responds (.done (extract w) (.known (.sub rs rt rd sh)) (.regWritten rd v)) s t

/-- R104: AND, bit by bit. -/
def Obligations.AndWritesBitwiseAnd : Prop :=
  ∀ (rs rt rd : RegIndex) (sh : Fin 32),
    let w := registerWord rs rt rd sh 0b100100#6
    classify (extract w) = .known (.and rs rt rd sh) ∧
    ∀ s : State, ∃ (t : State) (v : Word), exec (.and rs rt rd sh) s = .next t ∧
      (∀ k < 32, v.getLsbD k = ((readReg rs s).getLsbD k && (readReg rt s).getLsbD k)) ∧
      OnlyRegister rd v s t ∧
      Responds (.done (extract w) (.known (.and rs rt rd sh)) (.regWritten rd v)) s t

/-- R105: OR, bit by bit. -/
def Obligations.OrWritesBitwiseOr : Prop :=
  ∀ (rs rt rd : RegIndex) (sh : Fin 32),
    let w := registerWord rs rt rd sh 0b100101#6
    classify (extract w) = .known (.or rs rt rd sh) ∧
    ∀ s : State, ∃ (t : State) (v : Word), exec (.or rs rt rd sh) s = .next t ∧
      (∀ k < 32, v.getLsbD k = ((readReg rs s).getLsbD k || (readReg rt s).getLsbD k)) ∧
      OnlyRegister rd v s t ∧
      Responds (.done (extract w) (.known (.or rs rt rd sh)) (.regWritten rd v)) s t

/-- R106: XOR, bit by bit. -/
def Obligations.XorWritesBitwiseXor : Prop :=
  ∀ (rs rt rd : RegIndex) (sh : Fin 32),
    let w := registerWord rs rt rd sh 0b100110#6
    classify (extract w) = .known (.xor rs rt rd sh) ∧
    ∀ s : State, ∃ (t : State) (v : Word), exec (.xor rs rt rd sh) s = .next t ∧
      (∀ k < 32, v.getLsbD k = ((readReg rs s).getLsbD k != (readReg rt s).getLsbD k)) ∧
      OnlyRegister rd v s t ∧
      Responds (.done (extract w) (.known (.xor rs rt rd sh)) (.regWritten rd v)) s t

/-- R107: ADDI; the destination is the second register field (conflict C2, decision D6, log entry 8). -/
def Obligations.AddiWritesSum : Prop :=
  ∀ (rs rt : RegIndex) (imm : BitVec 16),
    let w := immediateWord 0b001000#6 rs rt imm
    classify (extract w) = .known (.addi rs rt (simm imm)) ∧
    ∀ s : State, ∃ (t : State) (v : Word), exec (.addi rs rt (simm imm)) s = .next t ∧
      (v.toNat : Int) = ((readReg rs s).toInt + simm imm) % 2 ^ 32 ∧ OnlyRegister rt v s t ∧
      Responds (.done (extract w) (.known (.addi rs rt (simm imm))) (.regWritten rt v)) s t

/-- R100: in signed terms ADD, SUB and ADDI wrap by 2^32 when the exact result does not fit; the pattern is that of the
exact result modulo 2^32, the same bits for the signed and the unsigned reading; and none of the six ALU instructions has
an error outcome. -/
def Obligations.OverflowWrapsSilently : Prop :=
  (∀ (s t : State) (i : Instr) (rd : RegIndex) (exact : Int), exec i s = .next t →
    ((∃ rs rt sh, i = .add rs rt rd sh ∧ exact = (readReg rs s).toInt + (readReg rt s).toInt) ∨
     (∃ rs rt sh, i = .sub rs rt rd sh ∧ exact = (readReg rs s).toInt - (readReg rt s).toInt) ∨
     (∃ rs imm, i = .addi rs rd imm ∧ WellFormed i = true ∧ exact = (readReg rs s).toInt + imm)) →
    (-2 ^ 31 ≤ exact → exact ≤ 2 ^ 31 - 1 → (readReg rd t).toInt = exact) ∧
    (2 ^ 31 - 1 < exact → (readReg rd t).toInt = exact - 2 ^ 32) ∧
    (exact < -2 ^ 31 → (readReg rd t).toInt = exact + 2 ^ 32) ∧
    readReg rd t = BitVec.ofInt 32 exact) ∧
  (∀ a b : Word, BitVec.ofInt 32 (a.toInt + b.toInt) = BitVec.ofInt 32 ((a.toNat : Int) + b.toNat) ∧
    BitVec.ofInt 32 (a.toInt - b.toInt) = BitVec.ofInt 32 ((a.toNat : Int) - b.toNat)) ∧
  ∀ (s : State) (i : Instr) (rs rt rd : RegIndex) (sh : Fin 32) (imm : Int),
    i ∈ [.add rs rt rd sh, .sub rs rt rd sh, .and rs rt rd sh, .or rs rt rd sh, .xor rs rt rd sh, .addi rs rt imm] →
    ∃ (t : State) (r : Response), exec i s = .next t ∧ t.responses = s.responses ++ [r] ∧ errorKindOf r = none

/-- 41_alu.md section 1, read before write: a destination that is also a source gets the result of the old values. -/
def Obligations.AliasedOperandsUseOldValues : Prop :=
  ∀ (r : RegIndex) (sh : Fin 32) (s : State),
    ∃ t₁ t₂ t₃ t₄ t₅ : State,
      exec (.add r r r sh) s = .next t₁ ∧ (readReg r t₁).toNat = 2 * (readReg r s).toNat % 2 ^ 32 ∧
      exec (.sub r r r sh) s = .next t₂ ∧ readReg r t₂ = 0#32 ∧
      exec (.xor r r r sh) s = .next t₃ ∧ readReg r t₃ = 0#32 ∧
      exec (.and r r r sh) s = .next t₄ ∧ SameArch s t₄ ∧
      exec (.or r r r sh) s = .next t₅ ∧ SameArch s t₅

/-! ## Memory -/

/-- 20_memory.md section 2: the exact address, the wrapped signed one and the wrapped unsigned one give the same verdict
and, in range, the same index (decision D8, log entry 12). -/
def Obligations.AddressFormsAgree : Prop :=
  ∀ (base : Word) (imm : BitVec 16),
    effectiveAddress base (simm imm) = base.toInt + simm imm ∧
    effectiveAddress32 base (simm imm) = BitVec.ofInt 32 (base.toInt + simm imm) ∧
    (InRange (effectiveAddress base (simm imm)) ↔ (effectiveAddress32 base (simm imm)).toNat < 256) ∧
    (InRange (effectiveAddress base (simm imm)) ↔ InRange (effectiveAddress32 base (simm imm)).toInt) ∧
    ∀ a : MemIndex, memIndex base (simm imm) = some a ↔ (effectiveAddress32 base (simm imm)).toNat = a.val

/-- R120: LW. That the error carries the wrapped sum `ea32` is the spec's decision D11 (log entry 11). -/
def Obligations.LoadWord : Prop :=
  ∀ (rs rt : RegIndex) (imm : BitVec 16),
    let w := immediateWord 0b100011#6 rs rt imm
    let i := Instr.lw rs rt (simm imm)
    classify (extract w) = .known i ∧
    ∀ s : State,
      (∀ a : MemIndex, (readReg rs s).toInt + simm imm = (a.val : Int) →
        ∃ t : State, exec i s = .next t ∧ OnlyRegister rt (memRead a s) s t ∧
          Responds (.done (extract w) (.known i) (.regWritten rt (memRead a s))) s t) ∧
      ((readReg rs s).toInt + simm imm < 0 ∨ 256 ≤ (readReg rs s).toInt + simm imm →
        ∃ t : State, exec i s = .next t ∧ SameArch s t ∧
          Responds (.done (extract w) (.known i)
            (.outOfRange (BitVec.ofInt 32 ((readReg rs s).toInt + simm imm)))) s t)

/-- R121: SW. That the error carries the wrapped sum `ea32` is the spec's decision D11 (log entry 11). -/
def Obligations.StoreWord : Prop :=
  ∀ (rs rt : RegIndex) (imm : BitVec 16),
    let w := immediateWord 0b101011#6 rs rt imm
    let i := Instr.sw rs rt (simm imm)
    classify (extract w) = .known i ∧
    ∀ s : State,
      (∀ a : MemIndex, (readReg rs s).toInt + simm imm = (a.val : Int) →
        ∃ t : State, exec i s = .next t ∧ OnlyMemWord a (readReg rt s) s t ∧
          Responds (.done (extract w) (.known i) (.memWritten a (readReg rt s))) s t) ∧
      ((readReg rs s).toInt + simm imm < 0 ∨ 256 ≤ (readReg rs s).toInt + simm imm →
        ∃ t : State, exec i s = .next t ∧ SameArch s t ∧
          Responds (.done (extract w) (.known i)
            (.outOfRange (BitVec.ofInt 32 ((readReg rs s).toInt + simm imm)))) s t)

/-- 42_load_store.md, load after store: a load from the index just stored to gets the stored pattern, a load from another
index what stood there before. -/
def Obligations.LoadAfterStore : Prop :=
  ∀ (s : State) (rs rt rs' rt' : RegIndex) (imm imm' : Int) (a b : MemIndex),
    effectiveAddress (readReg rs s) imm = (a.val : Int) → effectiveAddress (readReg rs' s) imm' = (b.val : Int) →
    ∃ t u : State, exec (.sw rs rt imm) s = .next t ∧ exec (.lw rs' rt' imm') t = .next u ∧
      readReg rt' u = if b = a then readReg rt s else memRead b s

/-- 20_memory.md section 2, which instructions reach memory: no step but an in-range SW changes a memory word, and it changes one; and what a
step does to the registers and answers depends on memory only through the one word an in-range LW reads. -/
def Obligations.MemoryReachedOnlyByLoadStore : Prop :=
  ∀ (s s' t t' : State), s'.regs = s.regs → s'.requests = s.requests → s'.responses = s.responses →
    step s = .next t → step s' = .next t' →
    ((∀ a : MemIndex, memRead a t = memRead a s) ∨
      ∃ (req : Request) (w : Word) (rs rt : RegIndex) (imm : Int) (a : MemIndex), s.requests.head? = some req ∧
        bitDecode req = .ok w ∧ classify (extract w) = .known (.sw rs rt imm) ∧
        effectiveAddress (readReg rs s) imm = (a.val : Int) ∧ OnlyMemWord a (readReg rt s) s t) ∧
    ((∀ (req : Request) (w : Word) (rs rt : RegIndex) (imm : Int) (a : MemIndex), s.requests.head? = some req →
        bitDecode req = .ok w → classify (extract w) = .known (.lw rs rt imm) →
        effectiveAddress (readReg rs s) imm = (a.val : Int) → memRead a s' = memRead a s) →
      t'.regs = t.regs ∧ t'.requests = t.requests ∧ t'.responses = t.responses)

/-! ## Registers read and written, branches, unused fields -/

/-- 10_state.md section 2: an instruction writes no register but its destination, and what it does depends on no
register but its sources. The destination gets the same value whatever any other register holds, its own old value
included, unless the instruction is an LW out of range, which keeps that old value. -/
def Obligations.RegistersReadAndWritten : Prop :=
  ∀ (i : Instr) (s s' t t' : State), s'.mem = s.mem → s'.requests = s.requests → s'.responses = s.responses →
    (∀ r ∈ sourcesOf i, readReg r s' = readReg r s) → exec i s = .next t → exec i s' = .next t' →
    (∀ r : RegIndex, destOf i ≠ some r → readReg r t = readReg r s) ∧
    t'.mem = t.mem ∧ t'.responses = t.responses ∧
    ∀ r : RegIndex, destOf i = some r →
      readReg r t' = readReg r t ∨
      ∃ (rs : RegIndex) (imm : Int), i = .lw rs r imm ∧ ¬ InRange (effectiveAddress (readReg rs s) imm) ∧
        readReg r t = readReg r s ∧ readReg r t' = readReg r s'

/-- R131: BEQ. -/
def Obligations.BranchEqualVerdict : Prop :=
  ∀ (rs rt : RegIndex) (imm : BitVec 16),
    let w := immediateWord 0b000100#6 rs rt imm
    classify (extract w) = .known (.beq rs rt (simm imm)) ∧
    ∀ s : State, ∃ (t : State) (taken : Bool), exec (.beq rs rt (simm imm)) s = .next t ∧
      (taken = true ↔ readReg rs s = readReg rt s) ∧ SameArch s t ∧
      Responds (.done (extract w) (.known (.beq rs rt (simm imm))) (.verdict taken)) s t

/-- R132: BNE. -/
def Obligations.BranchNotEqualVerdict : Prop :=
  ∀ (rs rt : RegIndex) (imm : BitVec 16),
    let w := immediateWord 0b000101#6 rs rt imm
    classify (extract w) = .known (.bne rs rt (simm imm)) ∧
    ∀ s : State, ∃ (t : State) (taken : Bool), exec (.bne rs rt (simm imm)) s = .next t ∧
      (taken = true ↔ readReg rs s ≠ readReg rt s) ∧ SameArch s t ∧
      Responds (.done (extract w) (.known (.bne rs rt (simm imm))) (.verdict taken)) s t

/-- 43_branch_compare.md, the common rule: BEQ and BNE write no register, no memory word and no other state; they add one response whose verdict does not
depend on the immediate. -/
def Obligations.BranchesOnlyReport : Prop :=
  ∀ (s : State) (rs rt : RegIndex), ∃ beqTaken bneTaken : Bool, ∀ imm : Int,
    exec (.beq rs rt imm) s = .next { s with
      responses := s.responses ++ [.done (fieldsOf (.beq rs rt imm)) (.known (.beq rs rt imm)) (.verdict beqTaken)] } ∧
    exec (.bne rs rt imm) s = .next { s with
      responses := s.responses ++ [.done (fieldsOf (.bne rs rt imm)) (.known (.bne rs rt imm)) (.verdict bneTaken)] }

/-- 43_branch_compare.md, idempotence: submitting the same BEQ or BNE again changes nothing and gives the same response. -/
def Obligations.BranchRepeatsItself : Prop :=
  ∀ (s : State) (req : Request) (rest : List Request) (w : Word) (rs rt : RegIndex) (imm : Int),
    s.requests = req :: req :: rest → bitDecode req = .ok w →
    (classify (extract w) = .known (.beq rs rt imm) ∨ classify (extract w) = .known (.bne rs rt imm)) →
    ∃ (t u : State) (r : Response), step s = .next t ∧ step t = .next u ∧ SameArch s t ∧ SameArch s u ∧
      u.requests = rest ∧ u.responses = s.responses ++ [r, r]

/-- R68: the shift amount of a register-form word and the immediate of BEQ and BNE change nothing but the reported fields:
two words that differ only there leave the same state and give the same outcome, unknown or not. -/
def Obligations.DontCareBitsChangeNothing : Prop :=
  ∀ (s : State) (w w' : Word),
    ((w.toNat / 2 ^ 26 = 0 ∧ w &&& 0xFFFFF83F#32 = w' &&& 0xFFFFF83F#32) ∨
     ((w.toNat / 2 ^ 26 = 4 ∨ w.toNat / 2 ^ 26 = 5) ∧ w &&& 0xFFFF0000#32 = w' &&& 0xFFFF0000#32)) →
    ∃ (t t' : State) (c c' : Classified) (o : StepOutcome),
      step (submitNext (hexEncode w) s) = .next t ∧ step (submitNext (hexEncode w') s) = .next t' ∧
      SameArch t t' ∧ t.responses = s.responses ++ [.done (extract w) c o] ∧
      t'.responses = s.responses ++ [.done (extract w') c' o]

/-! ## The opcode table's words -/

/-- The word of an opcode-table row runs its instruction as the very next step (log entry 4). -/
def Obligations.FetchWordRunsInstruction : Prop :=
  ∀ (s : State) (nbits w : Nat) (i : Instr), decodeTableWord nbits w = some i →
    step (s.withFetchWord nbits w) = exec i s
end

