-- ==== Sys2Proof/Laws/Decode.lean ====
section
/-! SUPPORT. The spec lemmas of the decoder's and encoder's parts (40_decode_pipeline.md R81, R87; 30_encoding.md R62, R63,
R65, R72). -/

namespace Sys2Proof

/-- `HexVal` undoes `hexDigit` (R81). -/
theorem hexVal_hexDigit : ∀ d : BitVec 4, hexVal (hexDigit d) = some d := by decide

/-- Putting a field below another is adding it. -/
theorem shiftLeft_or (a b k : Nat) (h : b < 2 ^ k) : a <<< k ||| b = a * 2 ^ k + b := by
  rw [Nat.shiftLeft_eq, Nat.mul_comm, Nat.two_pow_add_eq_or_of_lt h]

/-- A register-form word as a number (R72). -/
theorem toNat_encodeR (funct : BitVec 6) (rs rt rd : RegIndex) (shamt : Fin 32) :
    (encodeR funct rs rt rd shamt).toNat =
      rs.val * 2 ^ 21 + rt.val * 2 ^ 16 + rd.val * 2 ^ 11 + shamt.val * 2 ^ 6 + funct.toNat := by
  unfold encodeR
  simp only [BitVec.toNat_append, BitVec.toNat_ofFin]
  rw [shiftLeft_or _ funct.toNat 6 funct.isLt, shiftLeft_or _ shamt.val 5 shamt.isLt,
    shiftLeft_or _ rd.val 5 rd.isLt, shiftLeft_or _ rt.val 5 rt.isLt, shiftLeft_or _ rs.val 5 rs.isLt]
  simp
  omega

/-- An immediate-form word as a number (R72). -/
theorem toNat_encodeI (opcode : BitVec 6) (rs rt : RegIndex) (imm : Int) :
    (encodeI opcode rs rt imm).toNat =
      opcode.toNat * 2 ^ 26 + rs.val * 2 ^ 21 + rt.val * 2 ^ 16 + (BitVec.ofInt 16 imm).toNat := by
  unfold encodeI
  simp only [BitVec.toNat_append, BitVec.toNat_ofFin]
  rw [shiftLeft_or _ _ 16 (BitVec.isLt _), shiftLeft_or _ rt.val 5 rt.isLt, shiftLeft_or _ rs.val 5 rs.isLt]
  omega

/-- The slices of a register-form word are the parts it was put together from (R62). -/
theorem extract_encodeR (funct : BitVec 6) (rs rt rd : RegIndex) (shamt : Fin 32) :
    (extract (encodeR funct rs rt rd shamt)).opcode = 0#6 ∧
    (extract (encodeR funct rs rt rd shamt)).field2 = BitVec.ofFin rs ∧
    (extract (encodeR funct rs rt rd shamt)).field3 = BitVec.ofFin rt ∧
    (extract (encodeR funct rs rt rd shamt)).field4 = BitVec.ofFin rd ∧
    (extract (encodeR funct rs rt rd shamt)).field5 = BitVec.ofFin shamt ∧
    (extract (encodeR funct rs rt rd shamt)).field6 = funct := by
  have h := toNat_encodeR funct rs rt rd shamt
  have hf := funct.isLt
  simp only [extract]
  refine ⟨?_, ?_, ?_, ?_, ?_, ?_⟩ <;>
  · apply BitVec.eq_of_toNat_eq
    simp only [BitVec.extractLsb'_toNat, BitVec.toNat_ofFin, BitVec.toNat_ofNat, h, Nat.shiftRight_eq_div_pow]
    omega

/-- The slices of an immediate-form word are the parts it was put together from (R63). -/
theorem extract_encodeI (opcode : BitVec 6) (rs rt : RegIndex) (imm : Int) :
    (extract (encodeI opcode rs rt imm)).opcode = opcode ∧
    (extract (encodeI opcode rs rt imm)).field2 = BitVec.ofFin rs ∧
    (extract (encodeI opcode rs rt imm)).field3 = BitVec.ofFin rt ∧
    (extract (encodeI opcode rs rt imm)).immediate = BitVec.ofInt 16 imm := by
  have h := toNat_encodeI opcode rs rt imm
  have hi := (BitVec.ofInt 16 imm).isLt
  have ho := opcode.isLt
  simp only [extract]
  refine ⟨?_, ?_, ?_, ?_⟩ <;>
  · apply BitVec.eq_of_toNat_eq
    simp only [BitVec.extractLsb'_toNat, BitVec.toNat_ofFin, h, Nat.shiftRight_eq_div_pow]
    omega

/-- The decoder leaves every immediate in range (R65). -/
theorem simm_fits (imm : BitVec 16) : immediateFits (simm imm) = true := by
  have h := imm.isLt
  simp only [immediateFits, simm, BitVec.msb_eq_decide, Bool.and_eq_true, decide_eq_true_eq]
  split <;> omega

/-- Encoding an immediate that fits and decoding it gives it back. -/
theorem simm_ofInt (k : Int) (h : immediateFits k = true) : simm (BitVec.ofInt 16 k) = k := by
  simp only [immediateFits, Bool.and_eq_true, decide_eq_true_eq] at h
  simp only [simm, BitVec.msb_eq_decide, BitVec.toNat_ofInt, decide_eq_true_eq]
  omega

/-- Decoding a raw immediate and encoding it gives it back. -/
theorem ofInt_simm (imm : BitVec 16) : BitVec.ofInt 16 (simm imm) = imm := by
  have h := imm.isLt
  apply BitVec.eq_of_toNat_eq
  simp only [simm, BitVec.msb_eq_decide, BitVec.toNat_ofInt, decide_eq_true_eq]
  split <;> omega

end Sys2Proof
end

