-- ==== Sys2Proof/Laws/Memory.lean ====
section
/-! SUPPORT. The laws of the canonical memory list: read after write, and every write keeps the canonical form. -/

namespace Sys2Proof.Machine

theorem read_of_not_listed (a : Nat) (m : Memory) (h : ∀ c ∈ m, c.1 ≠ a) :
    Memory.read a m = Memory.unlisted a := by
  induction m with
  | nil => rfl
  | cons c m ih =>
    obtain ⟨b, u⟩ := c
    have hb : b ≠ a := h (b, u) (by simp)
    simp only [Memory.read, hb, if_false]
    exact ih (fun c hc => h c (by simp [hc]))

theorem read_filter_same (a : Nat) (m : Memory) :
    Memory.read a (m.filter (fun c => c.1 ≠ a)) = Memory.unlisted a :=
  read_of_not_listed a _ (fun c hc => by simpa using (List.mem_filter.mp hc).2)

theorem read_filter_ne (a b : Nat) (h : b ≠ a) (m : Memory) :
    Memory.read b (m.filter (fun c => c.1 ≠ a)) = Memory.read b m := by
  induction m with
  | nil => rfl
  | cons c m ih =>
    obtain ⟨k, u⟩ := c
    by_cases hk : k = a
    · subst hk
      simpa [Memory.read, Ne.symm h] using ih
    · simp only [ne_eq, decide_not] at ih
      simp [Memory.read, hk, ih]

theorem read_insert_ne (a b : Nat) (v : Word) (h : b ≠ a) (m : Memory) :
    Memory.read b (Memory.insert a v m) = Memory.read b m := by
  induction m with
  | nil => simp [Memory.insert, Memory.read, Ne.symm h]
  | cons c m ih =>
    obtain ⟨k, u⟩ := c
    by_cases hk : a < k
    · simp [Memory.insert, Memory.read, hk, Ne.symm h]
    · simp [Memory.insert, Memory.read, hk, ih]

theorem read_insert_same (a : Nat) (v : Word) (m : Memory) (h : ∀ c ∈ m, c.1 ≠ a) :
    Memory.read a (Memory.insert a v m) = v := by
  induction m with
  | nil => simp [Memory.insert, Memory.read]
  | cons c m ih =>
    obtain ⟨k, u⟩ := c
    have hk : k ≠ a := h (k, u) (by simp)
    by_cases hlt : a < k
    · simp [Memory.insert, Memory.read, hlt]
    · simpa [Memory.insert, Memory.read, hlt, hk] using ih (fun c hc => h c (by simp [hc]))

/-- R40: the word written is read back. -/
theorem Memory.read_write_same (a : Nat) (v : Word) (m : Memory) :
    Memory.read a (Memory.write a v m) = v := by
  by_cases hv : v = Memory.unlisted a
  · simp only [Memory.write, hv, if_true]
    exact read_filter_same a m
  · simp only [Memory.write, hv, if_false]
    exact read_insert_same a v _ (fun c hc => by simpa using (List.mem_filter.mp hc).2)

/-- R40: no other word changes. -/
theorem Memory.read_write_ne (a b : Nat) (v : Word) (h : b ≠ a) (m : Memory) :
    Memory.read b (Memory.write a v m) = Memory.read b m := by
  by_cases hv : v = Memory.unlisted a
  · simp only [Memory.write, hv, if_true]
    exact read_filter_ne a b h m
  · simp only [Memory.write, hv, if_false]
    rw [read_insert_ne a b v h, read_filter_ne a b h]

theorem mem_insert (a : Nat) (v : Word) (m : Memory) (c : MemCell) :
    c ∈ Memory.insert a v m ↔ c = (a, v) ∨ c ∈ m := by
  induction m with
  | nil => simp [Memory.insert]
  | cons d m ih =>
    obtain ⟨k, u⟩ := d
    by_cases hlt : a < k
    · simp [Memory.insert, hlt]
    · simp only [Memory.insert, hlt, if_false, List.mem_cons, ih]
      tauto

theorem insert_sorted (a : Nat) (v : Word) (m : Memory) (h : ∀ c ∈ m, c.1 ≠ a)
    (hs : m.Pairwise (fun c d => c.1 < d.1)) :
    (Memory.insert a v m).Pairwise (fun c d => c.1 < d.1) := by
  induction m with
  | nil => simp [Memory.insert]
  | cons c m ih =>
    obtain ⟨k, u⟩ := c
    have hk : k ≠ a := h (k, u) (by simp)
    rw [List.pairwise_cons] at hs
    by_cases hlt : a < k
    · simp only [Memory.insert, hlt, if_true, List.pairwise_cons]
      refine ⟨fun d hd => ?_, hs⟩
      rcases List.mem_cons.mp hd with rfl | hd
      · exact hlt
      · exact Nat.lt_trans hlt (hs.1 d hd)
    · simp only [Memory.insert, hlt, if_false, List.pairwise_cons]
      refine ⟨fun d hd => ?_, ih (fun c hc => h c (by simp [hc])) hs.2⟩
      rcases (mem_insert a v m d).mp hd with rfl | hd
      · show k < a
        omega
      · exact hs.1 d hd

/-- Every write inside the 256 words keeps the canonical form. -/
theorem Memory.wf_write (a : Nat) (v : Word) (m : Memory) (ha : a < 256) (h : Memory.wf m) :
    Memory.wf (Memory.write a v m) := by
  have hf : ∀ c ∈ m.filter (fun c => c.1 ≠ a), c.1 ≠ a := fun c hc => by
    simpa using (List.mem_filter.mp hc).2
  have hs : (m.filter (fun c => c.1 ≠ a)).Pairwise (fun c d => c.1 < d.1) :=
    List.Pairwise.filter _ h.1
  have hm : ∀ c ∈ m.filter (fun c => c.1 ≠ a), c.1 < Config.memoryWords ∧ c.2 ≠ Memory.unlisted c.1 :=
    fun c hc => h.2 c (List.mem_filter.mp hc).1
  by_cases hv : v = Memory.unlisted a
  · simp only [Memory.write, hv, if_true]
    exact ⟨hs, hm⟩
  · simp only [Memory.write, hv, if_false]
    refine ⟨insert_sorted a v _ hf hs, fun c hc => ?_⟩
    rcases (mem_insert a v _ c).mp hc with rfl | hc
    · exact ⟨ha, hv⟩
    · exact hm c hc

end Sys2Proof.Machine
end

