-- ==== Sys2Proof/Laws/Operands.lean ====
section
/-! SUPPORT. The addressing mode's spec lemmas (20_memory.md R41, R42). -/

namespace Sys2Proof.Machine

/-- An access reaches index `a` exactly when the effective address is `a`. -/
theorem memIndex_eq_some (base : Word) (imm : Int) (a : MemIndex) :
    memIndex base imm = some a ↔ effectiveAddress base imm = (a.val : Int) := by
  unfold memIndex
  split
  · rename_i h
    have h0 := h.1
    have h1 : effectiveAddress base imm < 256 := h.2
    simp only [Option.some.injEq, Fin.ext_iff]
    omega
  · rename_i h
    have ha := a.isLt
    simp only [reduceCtorEq, false_iff]
    intro e
    exact h ⟨by omega, show effectiveAddress base imm < 256 by omega⟩

/-- An access reaches no word exactly when the effective address is out of range. -/
theorem memIndex_eq_none (base : Word) (imm : Int) :
    memIndex base imm = none ↔ ¬ InRange (effectiveAddress base imm) := by
  unfold memIndex
  split
  · rename_i h
    exact ⟨fun e => by simp at e, fun e => absurd h e⟩
  · rename_i h
    exact ⟨fun _ => h, fun _ => rfl⟩

/-- The wrapped address is the exact one modulo 2^32 (R42). -/
theorem effectiveAddress32_eq (base : Word) (imm : Int) :
    effectiveAddress32 base imm = BitVec.ofInt 32 (effectiveAddress base imm) := by
  simp [effectiveAddress32, effectiveAddress, immWord, BitVec.ofInt_add]

end Sys2Proof.Machine
end

