-- ==== Sys2Proof/Laws/State.lean ====
section
/-! SUPPORT. One lemma per field per update of the state, so that no proof unfolds a record update. -/

namespace Sys2Proof.Machine

@[simp] theorem writeReg_mem (r : RegIndex) (v : Word) (s : State) : (writeReg r v s).mem = s.mem := rfl
@[simp] theorem writeReg_requests (r : RegIndex) (v : Word) (s : State) :
    (writeReg r v s).requests = s.requests := rfl
@[simp] theorem writeReg_responses (r : RegIndex) (v : Word) (s : State) :
    (writeReg r v s).responses = s.responses := rfl

@[simp] theorem memWrite_regs (a : MemIndex) (v : Word) (s : State) : (memWrite a v s).regs = s.regs := rfl
@[simp] theorem memWrite_mem (a : MemIndex) (v : Word) (s : State) :
    (memWrite a v s).mem = Memory.write a.val v s.mem := rfl
@[simp] theorem memWrite_requests (a : MemIndex) (v : Word) (s : State) :
    (memWrite a v s).requests = s.requests := rfl
@[simp] theorem memWrite_responses (a : MemIndex) (v : Word) (s : State) :
    (memWrite a v s).responses = s.responses := rfl

@[simp] theorem respond_regs (r : Response) (s : State) : (respond r s).regs = s.regs := rfl
@[simp] theorem respond_mem (r : Response) (s : State) : (respond r s).mem = s.mem := rfl
@[simp] theorem respond_requests (r : Response) (s : State) : (respond r s).requests = s.requests := rfl
@[simp] theorem respond_responses (r : Response) (s : State) :
    (respond r s).responses = s.responses ++ [r] := rfl

@[simp] theorem submit_regs (reqs : List Request) (s : State) : (submit reqs s).regs = s.regs := rfl
@[simp] theorem submit_mem (reqs : List Request) (s : State) : (submit reqs s).mem = s.mem := rfl
@[simp] theorem submit_requests (reqs : List Request) (s : State) :
    (submit reqs s).requests = s.requests ++ reqs := rfl
@[simp] theorem submit_responses (reqs : List Request) (s : State) :
    (submit reqs s).responses = s.responses := rfl

@[simp] theorem submitNext_regs (req : Request) (s : State) : (submitNext req s).regs = s.regs := rfl
@[simp] theorem submitNext_mem (req : Request) (s : State) : (submitNext req s).mem = s.mem := rfl
@[simp] theorem submitNext_requests (req : Request) (s : State) :
    (submitNext req s).requests = req :: s.requests := rfl
@[simp] theorem submitNext_responses (req : Request) (s : State) :
    (submitNext req s).responses = s.responses := rfl

end Sys2Proof.Machine
end

