-- ==== Sys2Proof/Laws/Ops.lean ====
section
/-! SUPPORT. One spec lemma per shared operation: what it changes, what it leaves, what it answers. -/

namespace Sys2Proof.Machine

/-! ## Reads after writes -/

@[simp] theorem readReg_writeReg_same (r : RegIndex) (v : Word) (s : State) :
    readReg r (writeReg r v s) = v := by
  simp [readReg, writeReg]

theorem readReg_writeReg_ne (r q : RegIndex) (v : Word) (s : State) (h : q ≠ r) :
    readReg q (writeReg r v s) = readReg q s := by
  have h' : r.val ≠ q.val := fun e => h (Fin.ext e.symm)
  simp [readReg, writeReg, h']

@[simp] theorem readReg_memWrite (r : RegIndex) (a : MemIndex) (v : Word) (s : State) :
    readReg r (memWrite a v s) = readReg r s := rfl

@[simp] theorem readReg_respond (r : RegIndex) (x : Response) (s : State) :
    readReg r (respond x s) = readReg r s := rfl

@[simp] theorem memRead_respond (a : MemIndex) (x : Response) (s : State) :
    memRead a (respond x s) = memRead a s := rfl

@[simp] theorem memRead_writeReg (a : MemIndex) (r : RegIndex) (v : Word) (s : State) :
    memRead a (writeReg r v s) = memRead a s := rfl

@[simp] theorem memRead_memWrite_same (a : MemIndex) (v : Word) (s : State) :
    memRead a (memWrite a v s) = v := Memory.read_write_same a.val v s.mem

theorem memRead_memWrite_ne (a b : MemIndex) (v : Word) (s : State) (h : b ≠ a) :
    memRead b (memWrite a v s) = memRead b s :=
  Memory.read_write_ne a.val b.val v (fun e => h (Fin.ext e)) s.mem

/-! ## What the operations that end a step do -/

/-- `raiseError` (R153): every word of `S` stays and exactly the response is added. -/
theorem raiseError_spec (r : Response) (s : State) :
    SameArch s (raiseError r s) ∧ Responds r s (raiseError r s) :=
  ⟨⟨fun _ => rfl, fun _ => rfl⟩, rfl, rfl⟩

/-- `report` alone writes no word. -/
theorem report_spec (i : Instr) (o : StepOutcome) (s : State) :
    SameArch s (report i o s) ∧ Responds (.done (fieldsOf i) (.known i) o) s (report i o s) :=
  ⟨⟨fun _ => rfl, fun _ => rfl⟩, rfl, rfl⟩

/-- `writeBack` (R101): one register written, reported with its value. -/
theorem writeBack_spec (i : Instr) (rd : RegIndex) (v : Word) (s : State) :
    OnlyRegister rd v s (writeBack i rd v s) ∧
      Responds (.done (fieldsOf i) (.known i) (.regWritten rd v)) s (writeBack i rd v s) :=
  ⟨⟨readReg_writeReg_same rd v s, fun q h => readReg_writeReg_ne rd q v s h, fun _ => rfl⟩, rfl, rfl⟩

/-- A store and its report: one memory word written. -/
theorem report_memWrite_spec (i : Instr) (o : StepOutcome) (a : MemIndex) (v : Word) (s : State) :
    OnlyMemWord a v s (report i o (memWrite a v s)) ∧
      Responds (.done (fieldsOf i) (.known i) o) s (report i o (memWrite a v s)) :=
  ⟨⟨memRead_memWrite_same a v s, fun b h => memRead_memWrite_ne a b v s h, fun _ => rfl⟩, rfl, rfl⟩

/-! ## The invariant -/

theorem inv_writeReg (r : RegIndex) (v : Word) (s : State) (h : Inv s) : Inv (writeReg r v s) := h

theorem inv_respond (r : Response) (s : State) (h : Inv s) : Inv (respond r s) := h

theorem inv_memWrite (a : MemIndex) (v : Word) (s : State) (h : Inv s) : Inv (memWrite a v s) :=
  Memory.wf_write a.val v s.mem a.isLt h

end Sys2Proof.Machine
end

