-- ==== Sys2Proof/Laws/PerInstr.lean ====
section
/-! SUPPORT. Statements about every instruction, one lemma per constructor. Family TableRow: the word of an instruction
satisfies `w & mask = match` for its row of spec/opcode_table.json (30_encoding.md R66, R67), whatever its operands. -/

namespace Sys2Proof.Laws.TableRow

/-- The mask of an instruction's row (R66, R67). -/
def tableMask : Instr → Word
  | .add _ _ _ _ => 0xFC00003F#32
  | .sub _ _ _ _ => 0xFC00003F#32
  | .and _ _ _ _ => 0xFC00003F#32
  | .or  _ _ _ _ => 0xFC00003F#32
  | .xor _ _ _ _ => 0xFC00003F#32
  | .beq  _ _ _ => 0xFC000000#32
  | .bne  _ _ _ => 0xFC000000#32
  | .addi _ _ _ => 0xFC000000#32
  | .lw   _ _ _ => 0xFC000000#32
  | .sw   _ _ _ => 0xFC000000#32

/-- The match value of an instruction's row (R66, R67). -/
def tableMatch : Instr → Word
  | .add _ _ _ _ => 0x00000020#32
  | .sub _ _ _ _ => 0x00000022#32
  | .and _ _ _ _ => 0x00000024#32
  | .or  _ _ _ _ => 0x00000025#32
  | .xor _ _ _ _ => 0x00000026#32
  | .beq  _ _ _ => 0x10000000#32
  | .bne  _ _ _ => 0x14000000#32
  | .addi _ _ _ => 0x20000000#32
  | .lw   _ _ _ => 0x8C000000#32
  | .sw   _ _ _ => 0xAC000000#32

/-- The word of the instruction lies in its row. -/
def Statement (i : Instr) : Prop := encode i &&& tableMask i = tableMatch i

/-- The mask of a register-form row keeps the opcode and the function code. -/
theorem encodeR_masked (funct : BitVec 6) (rs rt rd : RegIndex) (shamt : Fin 32) :
    encodeR funct rs rt rd shamt &&& 0xFC00003F#32 = 0#26 ++ funct := by
  show ((0#6 ++ BitVec.ofFin (w := 5) rs ++ BitVec.ofFin (w := 5) rt ++ BitVec.ofFin (w := 5) rd ++
    BitVec.ofFin (w := 5) shamt ++ funct) &&& (0x3F#6 ++ 0#5 ++ 0#5 ++ 0#5 ++ 0#5 ++ 0x3F#6) :
      BitVec (6 + 5 + 5 + 5 + 5 + 6)) = _
  have h : funct &&& 0x3F#6 = funct := by
    rw [show (0x3F#6 : BitVec 6) = BitVec.allOnes 6 from rfl, BitVec.and_allOnes]
  simp only [BitVec.and_append, BitVec.and_zero, BitVec.zero_and, h]
  rfl

/-- The mask of an immediate-form row keeps the opcode. -/
theorem encodeI_masked (opcode : BitVec 6) (rs rt : RegIndex) (imm : Int) :
    encodeI opcode rs rt imm &&& 0xFC000000#32 = opcode ++ 0#26 := by
  show ((opcode ++ BitVec.ofFin (w := 5) rs ++ BitVec.ofFin (w := 5) rt ++ BitVec.ofInt 16 imm) &&&
    (0x3F#6 ++ 0#5 ++ 0#5 ++ 0#16) : BitVec (6 + 5 + 5 + 16)) = _
  have h : opcode &&& 0x3F#6 = opcode := by
    rw [show (0x3F#6 : BitVec 6) = BitVec.allOnes 6 from rfl, BitVec.and_allOnes]
  simp only [BitVec.and_append, BitVec.and_zero, h]
  apply BitVec.eq_of_toNat_eq
  simp only [BitVec.toNat_append, BitVec.toNat_ofNat, Nat.zero_mod, Nat.or_zero, ← Nat.shiftLeft_add]

theorem add (rs rt rd : RegIndex) (shamt : Fin 32) : Statement (.add rs rt rd shamt) :=
  encodeR_masked 32#6 rs rt rd shamt

theorem sub (rs rt rd : RegIndex) (shamt : Fin 32) : Statement (.sub rs rt rd shamt) :=
  encodeR_masked 34#6 rs rt rd shamt

theorem and (rs rt rd : RegIndex) (shamt : Fin 32) : Statement (.and rs rt rd shamt) :=
  encodeR_masked 36#6 rs rt rd shamt

theorem or (rs rt rd : RegIndex) (shamt : Fin 32) : Statement (.or rs rt rd shamt) :=
  encodeR_masked 37#6 rs rt rd shamt

theorem xor (rs rt rd : RegIndex) (shamt : Fin 32) : Statement (.xor rs rt rd shamt) :=
  encodeR_masked 38#6 rs rt rd shamt

theorem beq (rs rt : RegIndex) (imm : Int) : Statement (.beq rs rt imm) := encodeI_masked 4#6 rs rt imm

theorem bne (rs rt : RegIndex) (imm : Int) : Statement (.bne rs rt imm) := encodeI_masked 5#6 rs rt imm

theorem addi (rs rt : RegIndex) (imm : Int) : Statement (.addi rs rt imm) := encodeI_masked 8#6 rs rt imm

theorem lw (rs rt : RegIndex) (imm : Int) : Statement (.lw rs rt imm) := encodeI_masked 35#6 rs rt imm

theorem sw (rs rt : RegIndex) (imm : Int) : Statement (.sw rs rt imm) := encodeI_masked 43#6 rs rt imm

end Sys2Proof.Laws.TableRow
end

