-- ==== Sys2Proof/Tests/Slice0.lean ====
section
/-! SUPPORT. The model's own tests. Expected values are those of 95_test_vectors.md and the worked examples of the rules
(the vector's id stands in the theorem's comment); the last part holds a witness for the hypotheses of every statement. -/

namespace Sys2Proof.Tests

open Sys2Proof Sys2Proof.Machine

/-! ## Helpers -/

/-- The state after a step, if it goes on. -/
def nextOf (o : Host.Outcome State Fault Refusal) : Option State :=
  match o with
  | .next t => some t
  | .fault _ => none
  | .refused _ => none

/-- The seed with some registers replaced. -/
def seedWith : List (RegIndex × Word) → State
  | []            => State.reset
  | (r, v) :: rest => writeReg r v (seedWith rest)

/-- One step that serves the word `w`. -/
def afterWord (w : Nat) (s : State) : Option State := nextOf (step (s.withFetchWord 32 w))

/-- The outcome a step reported last. -/
def outcomeOf (t : State) : Option StepOutcome :=
  match t.responses.getLast? with
  | some (.done _ _ o) => some o
  | some (.rejected _) => none
  | none => none

/-! ## WellFormed refuses what no word stands for -/

theorem test_wf_addi_too_big : WellFormed (.addi 1 2 32768) = false := by decide
theorem test_wf_addi_too_small : WellFormed (.addi 1 2 (-32769)) = false := by decide
theorem test_wf_lw_too_big : WellFormed (.lw 1 2 32768) = false := by decide
theorem test_wf_sw_too_small : WellFormed (.sw 1 2 (-32769)) = false := by decide
theorem test_wf_beq_too_big : WellFormed (.beq 1 2 40000) = false := by decide
theorem test_wf_bne_too_small : WellFormed (.bne 1 2 (-40000)) = false := by decide
theorem test_wf_bounds : (WellFormed (.lw 1 2 32767) && WellFormed (.lw 1 2 (-32768))) = true := by decide

/-! ## Decoding: one word per constructor, written out bit by bit from 30_encoding.md R62, R63, R66, R67 -/

-- 000000 sssss ttttt ddddd hhhhh 100000
theorem test_decode_add : decodeTableWord 32 0b00000000111001110011111111100000 = some (.add 7 7 7 31) := by decide
-- 000000 sssss ttttt ddddd hhhhh 100010
theorem test_decode_sub : decodeTableWord 32 0b00000001000010100100100000100010 = some (.sub 8 10 9 0) := by decide
-- 000000 sssss ttttt ddddd hhhhh 100100
theorem test_decode_and : decodeTableWord 32 0b00000000110000110101100000100100 = some (.and 6 3 11 0) := by decide
-- 000000 sssss ttttt ddddd hhhhh 100101
theorem test_decode_or : decodeTableWord 32 0b00000000110000110110000000100101 = some (.or 6 3 12 0) := by decide
-- 000000 sssss ttttt ddddd hhhhh 100110
theorem test_decode_xor : decodeTableWord 32 0b00000000110000110110100000100110 = some (.xor 6 3 13 0) := by decide
-- 000100 sssss ttttt iiiiiiiiiiiiiiii
theorem test_decode_beq : decodeTableWord 32 0b00010010001101000101011001111000 = some (.beq 17 20 22136) := by decide
-- 000101 sssss ttttt iiiiiiiiiiiiiiii
theorem test_decode_bne : decodeTableWord 32 0b00010100011001001111111111111111 = some (.bne 3 4 (-1)) := by decide
-- 001000 sssss ttttt iiiiiiiiiiiiiiii
theorem test_decode_addi : decodeTableWord 32 0b00100001010010011111111111111011 = some (.addi 10 9 (-5)) := by decide
-- 100011 sssss ttttt iiiiiiiiiiiiiiii
theorem test_decode_lw : decodeTableWord 32 0b10001100010010000000000100101100 = some (.lw 2 8 300) := by decide
-- 101011 sssss ttttt iiiiiiiiiiiiiiii
theorem test_decode_sw : decodeTableWord 32 0b10101100001001111111111110011011 = some (.sw 1 7 (-101)) := by decide

-- Scenario A as corrected, and the literal the document prints (90_conflicts.md C1).
theorem test_decode_scenarioA : decodeTableWord 32 0x00242820 = some (.add 1 4 5 0) := by decide
theorem test_decode_scenarioA_literal : decodeTableWord 32 0x00642820 = some (.add 3 4 5 0) := by decide

-- V-UNK-1, V-UNK-8, V-UNK-22, V-UNK-23
theorem test_classify_zero : classify (extract 0x00000000#32) = .unknown .function 0 := by decide
theorem test_classify_function8 : classify (extract 0x03E00008#32) = .unknown .function 8 := by decide
theorem test_classify_ones : classify (extract 0xFFFFFFFF#32) = .unknown .opcode 63 := by decide
theorem test_classify_opcode32 : classify (extract 0x80000020#32) = .unknown .opcode 32 := by decide

/-! ## Requests -/

-- V-DEC-3, "AbCdEf01"
theorem test_request_mixed_case :
    bitDecode ['A', 'b', 'C', 'd', 'E', 'f', '0', '1'] = .ok 0xABCDEF01#32 := by rfl
-- V-DEC-7, the empty request
theorem test_request_empty : bitDecode [] = .error .invalidLength := by rfl
-- V-DEC-9, "xyz": the length is tested first
theorem test_request_short_and_wrong : bitDecode ['x', 'y', 'z'] = .error .invalidLength := by rfl
-- V-DEC-12, "00242820 ": no trimming
theorem test_request_trailing_space :
    bitDecode ['0', '0', '2', '4', '2', '8', '2', '0', ' '] = .error .invalidLength := by rfl
-- V-DEC-8, "0x123456"
theorem test_request_hex_mark :
    bitDecode ['0', 'x', '1', '2', '3', '4', '5', '6'] = .error .invalidDigit := by rfl
-- V-DEC-10, "0024282G"
theorem test_request_past_f : bitDecode ['0', '0', '2', '4', '2', '8', '2', 'G'] = .error .invalidDigit := by rfl
-- V-DEC-17, the full-width digit zero
theorem test_request_full_width :
    bitDecode [Char.ofNat 0xFF10, '0', '2', '4', '2', '8', '2', '0'] = .error .invalidDigit := by rfl
-- S-RT, "00c23820"
theorem test_hexEncode : hexEncode 0x00C23820#32 = ['0', '0', 'C', '2', '3', '8', '2', '0'] := by decide

/-! ## Instructions, one step each -/

-- V-ALU-3
theorem test_add_wraps :
    (afterWord 0x00221820 (seedWith [(1, 0xFFFFFFFF#32), (2, 1#32)])).map (readReg 3) = some 0#32 := by decide
-- V-ALU-6: register 0 is writable
theorem test_add_register0 : (afterWord 0x00210020 State.reset).map (readReg 0) = some 2#32 := by decide
-- V-ALU-7: the order of the operands
theorem test_sub_order : (afterWord 0x010A4822 State.reset).map (readReg 9) = some 0xFFFFFFFE#32 := by decide
-- V-ALU-14
theorem test_and_bits :
    (afterWord 0x00221824 (seedWith [(1, 0xF0F0F0F0#32), (2, 0xFF00FF00#32)])).map (readReg 3) =
      some 0xF000F000#32 := by decide
-- V-ALU-18
theorem test_or_bits :
    (afterWord 0x00221825 (seedWith [(1, 0xF0F0F0F0#32), (2, 0xFF00FF00#32)])).map (readReg 3) =
      some 0xFFF0FFF0#32 := by decide
-- V-ALU-22
theorem test_xor_bits :
    (afterWord 0x00221826 (seedWith [(1, 0xF0F0F0F0#32), (2, 0xFF00FF00#32)])).map (readReg 3) =
      some 0x0FF00FF0#32 := by decide
-- V-ADDI-4: the immediate is signed
theorem test_addi_negative : (afterWord 0x21498000 State.reset).map (readReg 9) = some 0xFFFF800A#32 := by decide
-- V-ADDI-11: field3 is the destination, register 5 = field4 does not change
theorem test_addi_destination :
    (afterWord 0x21542805 State.reset).map (fun t => (readReg 20 t, readReg 5 t)) =
      some (0x0000280F#32, 5#32) := by decide
-- V-LS-7: the base is -1
theorem test_lw_negative_base :
    (afterWord 0x8C230001 (seedWith [(1, 0xFFFFFFFF#32)])).map (readReg 3) = some 0#32 := by decide
-- V-LS-9: the wrapped sum is reported
theorem test_lw_out_of_range :
    (afterWord 0x8C238000 (seedWith [(1, 0x80000000#32)])).map (fun t => (outcomeOf t, readReg 3 t)) =
      some (some (.outOfRange 0x7FFF8000#32), 3#32) := by decide
-- V-LS-15
theorem test_sw_last_word :
    (afterWord 0xAC0700FF (seedWith [(7, 0x89ABCDEF#32)])).map (fun t => (memRead 255 t, t.mem)) =
      some (0x89ABCDEF#32, [(255, 0x89ABCDEF#32)]) := by decide
-- V-LS-16
theorem test_sw_out_of_range :
    (afterWord 0xAC070100 State.reset).map (fun t => (outcomeOf t, t.mem)) =
      some (some (.outOfRange 0x00000100#32), []) := by decide
-- V-LS-21: storing the seed value leaves the canonical empty list
theorem test_sw_seed_value : (afterWord 0xAD290000 State.reset).map State.mem = some [] := by decide
-- V-BR-3
theorem test_beq_taken :
    (afterWord 0x1064FFFF (seedWith [(3, 0x80000000#32), (4, 0x80000000#32)])).map outcomeOf =
      some (some (.verdict true)) := by decide
-- V-BR-2
theorem test_beq_not_taken :
    (afterWord 0x1064FFFF State.reset).map outcomeOf = some (some (.verdict false)) := by decide
-- V-BR-9
theorem test_bne_taken :
    (afterWord 0x141F0000 State.reset).map outcomeOf = some (some (.verdict true)) := by decide
-- V-BR-6
theorem test_bne_not_taken :
    (afterWord 0x14630010 State.reset).map outcomeOf = some (some (.verdict false)) := by decide
-- V-UNK-11
theorem test_unknown_reported :
    (afterWord 0x08000040 State.reset).map (fun t => (outcomeOf t, t.regs == State.reset.regs)) =
      some (some (.unrecognized .opcode 2), true) := by decide
-- P3 step 10, "0x123456"
theorem test_rejected_request :
    (nextOf (step (submitNext ['0', 'x', '1', '2', '3', '4', '5', '6'] State.reset))).map
      (fun t => t.responses.map statusOf) = some [2] := by decide
-- S-A: the trace text of Scenario A (30_encoding.md R73)
theorem test_trace_scenarioA :
    (afterWord 0x00242820 State.reset).map (fun t => t.responses.map traceText) =
      some [['a', 'd', 'd', ' ', '$', '5', ',', ' ', '$', '1', ',', ' ', '$', '4']] := by decide
-- "sw $7, -101($1)" (P2 step 5)
theorem test_trace_sw :
    instrText (.sw 1 7 (-101)) =
      ['s', 'w', ' ', '$', '7', ',', ' ', '-', '1', '0', '1', '(', '$', '1', ')'] := by decide

/-! ## Witnesses: concrete states and operands that meet the hypotheses of each statement -/

theorem next_of_isSome (o : Host.Outcome State Fault Refusal) (h : (nextOf o).isSome = true) :
    ∃ t : State, o = .next t := by
  cases o with
  | next t => exact ⟨t, rfl⟩
  | fault r => exact nomatch r
  | refused r => simp [nextOf] at h

/-- The request "AC270005", `sw $7, 5($1)`. -/
def storeRequest : Request := ['A', 'C', '2', '7', '0', '0', '0', '5']
/-- The request "8c230005", `lw $3, 5($1)`. -/
def loadRequest : Request := ['8', 'c', '2', '3', '0', '0', '0', '5']
/-- The request "10630010", `beq $3, $3, 16`. -/
def branchRequest : Request := ['1', '0', '6', '3', '0', '0', '1', '0']
/-- The request "00000000", an unknown word. -/
def unknownRequest : Request := ['0', '0', '0', '0', '0', '0', '0', '0']

/-- The seed with `R[1] = 100` and a store, a load and an unknown word submitted. -/
def busy : State := submit [storeRequest, loadRequest, unknownRequest] (seedWith [(1, 100#32)])

/-- `busy` after its first step, with one memory word listed. -/
def busyStored : State := { memWrite 105 7#32 busy with requests := [loadRequest, unknownRequest] }

theorem witness_StepKeepsCanonicalMemory : Inv busyStored ∧ ∃ t, step busyStored = .next t :=
  ⟨by decide, next_of_isSome _ (by decide)⟩

theorem witness_SnapshotDeterminesState :
    Inv (memWrite 3 3#32 busyStored) ∧ Inv busyStored ∧
      snapshot (memWrite 3 3#32 busyStored) = snapshot busyStored ∧
      (memWrite 3 3#32 busyStored).requests = busyStored.requests ∧
      (memWrite 3 3#32 busyStored).responses = busyStored.responses :=
  ⟨by decide, by decide, rfl, rfl, rfl⟩

-- for LengthErrorExactly, DigitErrorExactly and DecodeFailureRejects, one request of each kind
theorem witness_decode_errors :
    (submit [['x']] State.reset).requests = [['x']] ∧ bitDecode ['x'] = .error .invalidLength ∧
    (submit [['x', '0', '0', '0', '0', '0', '0', '0']] State.reset).requests =
      [['x', '0', '0', '0', '0', '0', '0', '0']] ∧
    bitDecode ['x', '0', '0', '0', '0', '0', '0', '0'] = .error .invalidDigit := ⟨rfl, rfl, rfl, rfl⟩

theorem witness_HexRoundTrip :
    bitDecode loadRequest = .ok 0x8C230005#32 ∧ bitDecode (hexEncode 0x8C230005#32) = .ok 0x8C230005#32 ∧
      loadRequest.map Char.toUpper = (hexEncode 0x8C230005#32).map Char.toUpper := ⟨rfl, rfl, by decide⟩

-- S-SX: both clauses at their boundary values
theorem witness_ImmediateSignExtension :
    (0x7FFF#16).toNat < 32768 ∧ simm 0x7FFF#16 = 32767 ∧
      32768 ≤ (0x8000#16).toNat ∧ simm 0x8000#16 = -32768 ∧ (immWord (simm 0x8000#16)) = 0xFFFF8000#32 ∧
      (extract 0x8C230005#32).immediate = 5#16 ∧ classify (extract 0x8C230005#32) = .known (.lw 1 3 5) := by decide

theorem witness_UnknownInstructionReported :
    (submit [unknownRequest] State.reset).requests = [unknownRequest] ∧ bitDecode unknownRequest = .ok 0#32 ∧
      classify (extract 0#32) = .unknown .function 0 := ⟨rfl, rfl, by decide⟩

theorem witness_DecodeOfEncode :
    WellFormed (.lw 31 0 32767) = true ∧ WellFormed (.addi 0 31 (-32768)) = true ∧
      WellFormed (.xor 31 30 29 31) = true := by decide

theorem witness_EncodeOfDecode :
    decodeRequest loadRequest = .ok (0x8C230005#32, .known (.lw 1 3 5)) := by rfl

theorem witness_StepRunsDecodedInstruction :
    busy.requests = storeRequest :: [loadRequest, unknownRequest] ∧ bitDecode storeRequest = .ok 0xAC270005#32 ∧
      classify (extract 0xAC270005#32) = .known (.sw 1 7 5) := ⟨rfl, rfl, by decide⟩

theorem witness_IdleHoldsState : State.reset.requests = [] := by decide

theorem witness_pending_request : busy.requests = storeRequest :: [loadRequest, unknownRequest] := rfl

theorem witness_ResponseCarriesFields :
    busy.requests = storeRequest :: [loadRequest, unknownRequest] ∧ bitDecode storeRequest = .ok 0xAC270005#32 :=
  ⟨rfl, rfl⟩

theorem witness_OneWordPerStep : ∃ t, step busy = .next t := next_of_isSome _ (by decide)

theorem witness_ResponsesDetermineState : ∃ t, core.run 3 busy = .next t :=
  next_of_isSome (core.run 3 busy) (by decide)

-- one witness for each clause: a register write and a memory write reported
theorem witness_ReportedWriteIsTrue :
    (∃ t, step busyStored = .next t) ∧
    (nextOf (step busyStored)).map State.responses =
      some (busyStored.responses ++ [.done (extract 0x8C230005#32) (.known (.lw 1 3 5)) (.regWritten 3 7#32)]) ∧
    (∃ t, step busy = .next t) ∧
    (nextOf (step busy)).map State.responses =
      some (busy.responses ++ [.done (extract 0xAC270005#32) (.known (.sw 1 7 5)) (.memWritten 105 7#32)]) :=
  ⟨next_of_isSome _ (by decide), by decide, next_of_isSome _ (by decide), by decide⟩

theorem witness_ErrorsChangeNothing :
    (nextOf (step (submit [unknownRequest] State.reset))).map State.responses =
      some ((submit [unknownRequest] State.reset).responses ++
        [.done (extract 0#32) (.unknown .function 0) (.unrecognized .function 0)]) ∧
    errorKindOf (.done (extract 0#32) (.unknown .function 0) (.unrecognized .function 0)) ≠ none := by decide

-- one witness for each status: in range, wrong length, wrong digit, unknown word, out of range at 256 and at -1
theorem witness_ErrorKindByStage :
    (nextOf (step busy)).map (fun t => t.responses.map statusOf) = some [0] ∧
    (nextOf (step (submit [['x']] State.reset))).map (fun t => t.responses.map statusOf) = some [1] ∧
    (nextOf (step (submit [['x', '0', '0', '0', '0', '0', '0', '0']] State.reset))).map
      (fun t => t.responses.map statusOf) = some [2] ∧
    (nextOf (step (submit [unknownRequest] State.reset))).map (fun t => t.responses.map statusOf) = some [3] ∧
    (nextOf (step (submit [loadRequest] (seedWith [(1, 251#32)])))).map (fun t => t.responses.map statusOf) =
      some [4] ∧
    (nextOf (step (submit [storeRequest] (seedWith [(1, 0xFFFFFFFA#32)])))).map (fun t => t.responses.map statusOf) =
      some [4] := by decide

theorem witness_ResponsesAreNeverRead :
    (∃ t, step busy = .next t) ∧ ∃ new, (nextOf (step busy)).map State.responses = some (busy.responses ++ new) :=
  ⟨next_of_isSome _ (by decide),
   [.done (extract 0xAC270005#32) (.known (.sw 1 7 5)) (.memWritten 105 7#32)], by decide⟩

theorem witness_LaterRequestsAreNotRead : busy.requests ≠ [] ∧ ∃ t, step busy = .next t :=
  ⟨by decide, next_of_isSome _ (by decide)⟩

-- one witness for each shape and for each clause at its boundary: exact = 2^31, -2^31 - 1, 2^31 - 1
theorem witness_OverflowWrapsSilently :
    (∃ t, exec (.add 1 2 3 0) (seedWith [(1, 0x7FFFFFFF#32), (2, 1#32)]) = .next t) ∧
    (readReg 1 (seedWith [(1, 0x7FFFFFFF#32), (2, 1#32)])).toInt +
      (readReg 2 (seedWith [(1, 0x7FFFFFFF#32), (2, 1#32)])).toInt = 2 ^ 31 ∧
    (∃ t, exec (.sub 1 2 3 0) (seedWith [(1, 0x80000000#32), (2, 1#32)]) = .next t) ∧
    (readReg 1 (seedWith [(1, 0x80000000#32), (2, 1#32)])).toInt -
      (readReg 2 (seedWith [(1, 0x80000000#32), (2, 1#32)])).toInt = -2 ^ 31 - 1 ∧
    (∃ t, exec (.addi 1 3 1) (seedWith [(1, 0x7FFFFFFE#32)]) = .next t) ∧ WellFormed (.addi 1 3 1) = true ∧
    (readReg 1 (seedWith [(1, 0x7FFFFFFE#32)])).toInt + 1 = 2 ^ 31 - 1 :=
  ⟨⟨_, rfl⟩, by decide, ⟨_, rfl⟩, by decide, ⟨_, rfl⟩, by decide, by decide⟩

-- both clauses of LW and of SW at the boundary addresses 0, 255, -1, 256
theorem witness_LoadWord_StoreWord :
    (readReg 1 (seedWith [(1, 0xFFFFFFFF#32)])).toInt + simm 1#16 = ((0 : MemIndex).val : Int) ∧
    (readReg 0 State.reset).toInt + simm 255#16 = ((255 : MemIndex).val : Int) ∧
    (readReg 0 State.reset).toInt + simm 0xFFFF#16 = -1 ∧ (readReg 0 State.reset).toInt + simm 256#16 = 256 := by
  decide

-- a = b and a different from b
theorem witness_LoadAfterStore :
    effectiveAddress (readReg 1 (seedWith [(1, 100#32)])) 5 = ((105 : MemIndex).val : Int) ∧
    effectiveAddress (readReg 5 (seedWith [(1, 100#32)])) 100 = ((105 : MemIndex).val : Int) ∧
    effectiveAddress (readReg 5 (seedWith [(1, 100#32)])) (-5) = ((0 : MemIndex).val : Int) := by decide

-- two states that differ only in memory, outside the word the load reads
theorem witness_MemoryReachedOnlyByLoadStore :
    (memWrite 9 1#32 busyStored).regs = busyStored.regs ∧
    (memWrite 9 1#32 busyStored).requests = busyStored.requests ∧
    (memWrite 9 1#32 busyStored).responses = busyStored.responses ∧
    memRead 105 (memWrite 9 1#32 busyStored) = memRead 105 busyStored ∧
    memRead 9 (memWrite 9 1#32 busyStored) ≠ memRead 9 busyStored ∧
    (∃ t, step busyStored = .next t) ∧ ∃ t, step (memWrite 9 1#32 busyStored) = .next t :=
  ⟨by decide, by decide, by decide, by decide, by decide, next_of_isSome _ (by decide), next_of_isSome _ (by decide)⟩

-- two states that differ in a register the instruction does not read: another one, and the destination of a SUB and of an
-- LW out of range
theorem witness_RegistersReadAndWritten :
    (writeReg 9 77#32 State.reset).mem = State.reset.mem ∧
    (writeReg 9 77#32 State.reset).requests = State.reset.requests ∧
    (writeReg 9 77#32 State.reset).responses = State.reset.responses ∧
    (∀ r ∈ sourcesOf (.sub 8 10 11 0), readReg r (writeReg 9 77#32 State.reset) = readReg r State.reset) ∧
    (∃ t, exec (.sub 8 10 11 0) State.reset = .next t) ∧
    (∃ t, exec (.sub 8 10 11 0) (writeReg 9 77#32 State.reset) = .next t) ∧
    (∀ r ∈ sourcesOf (.sub 8 10 9 0), readReg r (writeReg 9 77#32 State.reset) = readReg r State.reset) ∧
    destOf (.sub 8 10 9 0) = some 9 ∧
    (∃ t, exec (.sub 8 10 9 0) State.reset = .next t) ∧
    (∃ t, exec (.sub 8 10 9 0) (writeReg 9 77#32 State.reset) = .next t) ∧
    (∀ r ∈ sourcesOf (.lw 2 9 254), readReg r (writeReg 9 77#32 State.reset) = readReg r State.reset) ∧
    destOf (.lw 2 9 254) = some 9 ∧ ¬ InRange (effectiveAddress (readReg 2 State.reset) 254) ∧
    (∃ t, exec (.lw 2 9 254) State.reset = .next t) ∧
    ∃ t, exec (.lw 2 9 254) (writeReg 9 77#32 State.reset) = .next t :=
  ⟨rfl, rfl, rfl, by decide, ⟨_, rfl⟩, ⟨_, rfl⟩, by decide, rfl, ⟨_, rfl⟩, ⟨_, rfl⟩, by decide, rfl, by decide,
    next_of_isSome _ (by decide), next_of_isSome _ (by decide)⟩

theorem witness_BranchRepeatsItself :
    (submit [branchRequest, branchRequest] State.reset).requests = branchRequest :: branchRequest :: [] ∧
    bitDecode branchRequest = .ok 0x10630010#32 ∧ classify (extract 0x10630010#32) = .known (.beq 3 3 16) ∧
    classify (extract 0x14630010#32) = .known (.bne 3 3 16) := ⟨rfl, rfl, by decide, by decide⟩

-- ADD with shift amounts 31 and 0, BEQ and BNE with two immediates
theorem witness_DontCareBitsChangeNothing :
    ((0x00E73FE0#32).toNat / 2 ^ 26 = 0 ∧ 0x00E73FE0#32 &&& 0xFFFFF83F#32 = 0x00E73820#32 &&& 0xFFFFF83F#32) ∧
    ((0x1064FFFF#32).toNat / 2 ^ 26 = 4 ∧ 0x1064FFFF#32 &&& 0xFFFF0000#32 = 0x10640000#32 &&& 0xFFFF0000#32) ∧
    ((0x1464FFFF#32).toNat / 2 ^ 26 = 5 ∧ 0x1464FFFF#32 &&& 0xFFFF0000#32 = 0x14648000#32 &&& 0xFFFF0000#32) := by
  decide

theorem witness_FetchWordRunsInstruction : decodeTableWord 32 0x00E73FE0 = some (.add 7 7 7 31) := by decide

end Sys2Proof.Tests
end

section
/-! # What an instruction and a step do, and one word per step (10_state.md R32)

`exec` computes one outcome from the old state, writes the one word that the outcome names, if any, and reports the
outcome (`exec_eq_next_complete`); `step_cases` says everything a step can do. -/

namespace Sys2Proof.Machine

/-! ## What an instruction does -/

/-- The outcome of an instruction, as a function of the state before it (R102 to R107, R120, R121, R131, R132). -/
def outcomeOf (s : State) : Instr → StepOutcome
  | .add rs rt rd _ => .regWritten rd (readReg rs s + readReg rt s)
  | .sub rs rt rd _ => .regWritten rd (readReg rs s - readReg rt s)
  | .and rs rt rd _ => .regWritten rd (readReg rs s &&& readReg rt s)
  | .or  rs rt rd _ => .regWritten rd (readReg rs s ||| readReg rt s)
  | .xor rs rt rd _ => .regWritten rd (readReg rs s ^^^ readReg rt s)
  | .beq  rs rt _ => .verdict (equalVerdict (readReg rs s) (readReg rt s))
  | .bne  rs rt _ => .verdict (notEqualVerdict (readReg rs s) (readReg rt s))
  | .addi rs rt imm => .regWritten rt (readReg rs s + immWord imm)
  | .lw rs rt imm =>
    match memIndex (readReg rs s) imm with
    | some a => .regWritten rt (memRead a s)
    | none   => .outOfRange (effectiveAddress32 (readReg rs s) imm)
  | .sw rs rt imm =>
    match memIndex (readReg rs s) imm with
    | some a => .memWritten a (readReg rt s)
    | none   => .outOfRange (effectiveAddress32 (readReg rs s) imm)

/-- Writes the word that an outcome names, if it names one. -/
def writeOutcome : StepOutcome → State → State
  | .regWritten rd v,  s => writeReg rd v s
  | .memWritten a v,   s => memWrite a v s
  | .verdict _,        s => s
  | .unrecognized _ _, s => s
  | .outOfRange _,     s => s

/-- Completes instruction `i` with outcome `o`: the outcome written, then reported. -/
def complete (i : Instr) (o : StepOutcome) (s : State) : State := report i o (writeOutcome o s)

/-- LW either reaches a word and loads it or is out of range (R120). -/
theorem outcomeOf_lw_cases (s : State) (rs rt : RegIndex) (imm : Int) :
    (∃ a, memIndex (readReg rs s) imm = some a ∧ outcomeOf s (.lw rs rt imm) = .regWritten rt (memRead a s)) ∨
    (memIndex (readReg rs s) imm = none ∧
      outcomeOf s (.lw rs rt imm) = .outOfRange (effectiveAddress32 (readReg rs s) imm)) := by
  cases h : memIndex (readReg rs s) imm with
  | some a => exact .inl ⟨a, rfl, by simp [outcomeOf, h]⟩
  | none => exact .inr ⟨rfl, by simp [outcomeOf, h]⟩

/-- SW either reaches a word and stores to it or is out of range (R121). -/
theorem outcomeOf_sw_cases (s : State) (rs rt : RegIndex) (imm : Int) :
    (∃ a, memIndex (readReg rs s) imm = some a ∧ outcomeOf s (.sw rs rt imm) = .memWritten a (readReg rt s)) ∨
    (memIndex (readReg rs s) imm = none ∧
      outcomeOf s (.sw rs rt imm) = .outOfRange (effectiveAddress32 (readReg rs s) imm)) := by
  cases h : memIndex (readReg rs s) imm with
  | some a => exact .inl ⟨a, rfl, by simp [outcomeOf, h]⟩
  | none => exact .inr ⟨rfl, by simp [outcomeOf, h]⟩

/-- Every instruction completes with its outcome, from every state. -/
theorem exec_eq_next_complete (i : Instr) (s : State) : exec i s = .next (complete i (outcomeOf s i) s) := by
  cases i with
  | lw rs rt imm =>
    cases h : memIndex (readReg rs s) imm <;> simp only [exec, execLw, outcomeOf, h] <;> rfl
  | sw rs rt imm =>
    cases h : memIndex (readReg rs s) imm <;> simp only [exec, execSw, outcomeOf, h] <;> rfl
  | _ => rfl

/-- An outcome is computed from the 288 words alone: the pending requests have no part in it. -/
@[simp] theorem outcomeOf_withRequests (s : State) (reqs : List Request) (i : Instr) :
    outcomeOf { s with requests := reqs } i = outcomeOf s i := by
  cases i <;> rfl

section OutcomeFacts

variable {s : State} {i : Instr} {rs rt rd : RegIndex} {imm : Int} {a : MemIndex} {v : Word}

/-- The register that an outcome reports as written is the destination (R22). -/
theorem destOf_of_outcomeOf_regWritten (h : outcomeOf s i = .regWritten rd v) : destOf i = some rd := by
  cases i with
  | lw rs rt imm =>
    obtain ⟨b, -, ho⟩ | ⟨-, ho⟩ := outcomeOf_lw_cases s rs rt imm <;> simp_all [destOf]
  | sw rs rt imm =>
    obtain ⟨b, -, ho⟩ | ⟨-, ho⟩ := outcomeOf_sw_cases s rs rt imm <;> simp_all
  | _ => simp_all [outcomeOf, destOf]

/-- Only SW reports a memory word as written: its source register, at its effective address (R121). -/
theorem sw_of_outcomeOf_memWritten (h : outcomeOf s i = .memWritten a v) :
    ∃ rs rt imm, i = .sw rs rt imm ∧ effectiveAddress (readReg rs s) imm = (a.val : Int) ∧ v = readReg rt s := by
  cases i with
  | lw rs rt imm =>
    obtain ⟨b, -, ho⟩ | ⟨-, ho⟩ := outcomeOf_lw_cases s rs rt imm <;> simp_all
  | sw rs rt imm =>
    obtain ⟨b, hb, ho⟩ | ⟨-, ho⟩ := outcomeOf_sw_cases s rs rt imm
    · obtain ⟨rfl, rfl⟩ := StepOutcome.memWritten.inj (ho.symm.trans h)
      exact ⟨rs, rt, imm, rfl, (memIndex_eq_some _ _ _).mp hb, rfl⟩
    · simp_all
  | _ => simp_all [outcomeOf]

/-- An LW or SW whose effective address is out of range has no other outcome than that error (R43). -/
theorem outcomeOf_of_not_inRange (hi : i = .lw rs rt imm ∨ i = .sw rs rt imm)
    (hout : ¬ InRange (effectiveAddress (readReg rs s) imm)) :
    outcomeOf s i = .outOfRange (effectiveAddress32 (readReg rs s) imm) := by
  have hnone := (memIndex_eq_none _ _).mpr hout
  obtain rfl | rfl := hi <;> simp [outcomeOf, hnone]

/-- Any other outcome, such as a write, shows that the access was in range (R41). -/
theorem inRange_of_outcomeOf_ne (hne : ∀ ea32, outcomeOf s i ≠ .outOfRange ea32) (rs rt : RegIndex) (imm : Int)
    (hi : i = .lw rs rt imm ∨ i = .sw rs rt imm) : InRange (effectiveAddress (readReg rs s) imm) := by
  by_contra hout
  exact hne _ (outcomeOf_of_not_inRange hi hout)

end OutcomeFacts

/-! ## What a step does -/

section Step

variable {s t : State} {req : Request} {rest : List Request} {w : Word}

theorem step_of_no_request (h : s.requests = []) : step s = .next s := by
  simp [step, takeRequest, h, idle]

theorem step_of_decodeError {e : DecodeError} (hreq : s.requests = req :: rest) (hdec : bitDecode req = .error e) :
    step s = .next (reject e { s with requests := rest }) := by
  simp [step, takeRequest, hreq, decodeRequest, hdec]

theorem step_of_unknown {selector : Selector} {code : Fin 64} (hreq : s.requests = req :: rest)
    (hdec : bitDecode req = .ok w) (hcls : classify (extract w) = .unknown selector code) :
    step s = .next (execUnknown w selector code { s with requests := rest }) := by
  simp [step, takeRequest, hreq, decodeRequest, hdec, hcls]

theorem step_of_known {i : Instr} (hreq : s.requests = req :: rest) (hdec : bitDecode req = .ok w)
    (hcls : classify (extract w) = .known i) :
    step s = .next (complete i (outcomeOf s i) { s with requests := rest }) := by
  have hexec : step s = exec i { s with requests := rest } := by
    simp [step, takeRequest, hreq, decodeRequest, hdec, hcls]
  rw [hexec, exec_eq_next_complete, outcomeOf_withRequests]

/-- Everything a step can do (R8, R84, R140, R179): idle, reject, report an unknown word, or complete an instruction. -/
theorem step_cases (h : step s = .next t) :
    (s.requests = [] ∧ t = s) ∨
    ∃ req rest, s.requests = req :: rest ∧
      ((∃ e, bitDecode req = .error e ∧ t = reject e { s with requests := rest }) ∨
       ∃ w, bitDecode req = .ok w ∧
        ((∃ selector code, classify (extract w) = .unknown selector code ∧
            t = execUnknown w selector code { s with requests := rest }) ∨
         ∃ i, classify (extract w) = .known i ∧
            t = complete i (outcomeOf s i) { s with requests := rest })) := by
  have eq_of_step {u : State} (hu : step s = .next u) : t = u := Host.Outcome.next.inj (h.symm.trans hu)
  cases hreq : s.requests with
  | nil => exact .inl ⟨rfl, eq_of_step (step_of_no_request hreq)⟩
  | cons req rest =>
    refine .inr ⟨req, rest, rfl, ?_⟩
    cases hdec : bitDecode req with
    | error e => exact .inl ⟨e, rfl, eq_of_step (step_of_decodeError hreq hdec)⟩
    | ok w =>
      refine .inr ⟨w, rfl, ?_⟩
      cases hcls : classify (extract w) with
      | unknown selector code => exact .inl ⟨selector, code, rfl, eq_of_step (step_of_unknown hreq hdec hcls)⟩
      | known i => exact .inr ⟨i, rfl, eq_of_step (step_of_known hreq hdec hcls)⟩

end Step

/-! ## One word per step -/

theorem SameArch.refl (s : State) : SameArch s s := ⟨fun _ => rfl, fun _ => rfl⟩

/-- A completed instruction changes no word, or its destination register, or, for SW, the word it addresses. -/
theorem complete_outcomeOf_cases (i : Instr) (s : State) :
    SameArch s (complete i (outcomeOf s i) s) ∨
    ((∀ rs rt imm, i = .lw rs rt imm ∨ i = .sw rs rt imm → InRange (effectiveAddress (readReg rs s) imm)) ∧
      ((∃ rd v, destOf i = some rd ∧ OnlyRegister rd v s (complete i (outcomeOf s i) s)) ∨
       ∃ a rs rt imm, i = .sw rs rt imm ∧ effectiveAddress (readReg rs s) imm = (a.val : Int) ∧
        OnlyMemWord a (readReg rt s) s (complete i (outcomeOf s i) s))) := by
  cases ho : outcomeOf s i with
  | regWritten rd v =>
    exact .inr ⟨inRange_of_outcomeOf_ne (by simp [ho]),
      .inl ⟨rd, v, destOf_of_outcomeOf_regWritten ho, (writeBack_spec i rd v s).1⟩⟩
  | memWritten a v =>
    obtain ⟨rs, rt, imm, hsw, ha, rfl⟩ := sw_of_outcomeOf_memWritten ho
    exact .inr ⟨inRange_of_outcomeOf_ne (by simp [ho]),
      .inr ⟨a, rs, rt, imm, hsw, ha, (report_memWrite_spec i _ a _ s).1⟩⟩
  | verdict | unrecognized | outOfRange => exact .inl (report_spec i _ s).1

/-- Settles O24: of everything a step can do, only a completed instruction writes a word, and it writes the one word
that its outcome names. -/
theorem oneWordPerStep : Obligations.OneWordPerStep := by
  intro s t h
  obtain ⟨-, rfl⟩ | ⟨req, rest, hreq, hserved⟩ := step_cases h
  · exact .inl (SameArch.refl _)
  -- Taking the request touches no word: `s` and the state without the request read alike.
  obtain ⟨e, -, rfl⟩ | ⟨w, hdec, ⟨selector, code, -, rfl⟩ | ⟨i, hcls, rfl⟩⟩ := hserved
  · exact .inl (raiseError_spec _ { s with requests := rest }).1
  · exact .inl (raiseError_spec _ { s with requests := rest }).1
  · have hword := complete_outcomeOf_cases i { s with requests := rest }
    rw [outcomeOf_withRequests] at hword
    obtain hsame | ⟨hrange, hwrite⟩ := hword
    · exact .inl hsame
    · exact .inr ⟨req, rest, w, i, hreq, hdec, hcls, hrange, hwrite⟩

end Sys2Proof.Machine
end

section
/-! # The decoder's parts on a word (30_encoding.md R61 to R69, 40_decode_pipeline.md R81, R86, R87)

The slices of a word as numbers, the word put together again from its slices, the digits of a word, and one case lemma for
each of the classifier's two forms. From these: a classified instruction encodes to the word it came from
(`encode_of_classify`), and a masked word has the codes the mask keeps. -/

namespace Sys2Proof

/-! ## Extract -/

section Extract

variable (w : Word)

theorem toNat_extract_opcode : (extract w).opcode.toNat = w.toNat / 2 ^ 26 := by
  have h := w.isLt
  simp only [extract, BitVec.extractLsb'_toNat, Nat.shiftRight_eq_div_pow]
  omega

theorem toNat_extract_field2 : (extract w).field2.toNat = w.toNat / 2 ^ 21 % 32 := by
  simp only [extract, BitVec.extractLsb'_toNat, Nat.shiftRight_eq_div_pow]

theorem toNat_extract_field3 : (extract w).field3.toNat = w.toNat / 2 ^ 16 % 32 := by
  simp only [extract, BitVec.extractLsb'_toNat, Nat.shiftRight_eq_div_pow]

theorem toNat_extract_field4 : (extract w).field4.toNat = w.toNat / 2 ^ 11 % 32 := by
  simp only [extract, BitVec.extractLsb'_toNat, Nat.shiftRight_eq_div_pow]

theorem toNat_extract_field5 : (extract w).field5.toNat = w.toNat / 2 ^ 6 % 32 := by
  simp only [extract, BitVec.extractLsb'_toNat, Nat.shiftRight_eq_div_pow]

theorem toNat_extract_field6 : (extract w).field6.toNat = w.toNat % 64 := by
  simp [extract]

theorem toNat_extract_immediate : (extract w).immediate.toNat = w.toNat % 65536 := by
  simp [extract]

/-- The six fields of the register form side by side are the word (R62, R87). -/
theorem append_registerFields_extract :
    ((extract w).opcode ++ (extract w).field2 ++ (extract w).field3 ++ (extract w).field4 ++ (extract w).field5 ++
      (extract w).field6 : BitVec (6 + 5 + 5 + 5 + 5 + 6)) = w := by
  apply BitVec.eq_of_toNat_eq
  simp only [BitVec.toNat_append]
  rw [shiftLeft_or _ _ 6 (BitVec.isLt _), shiftLeft_or _ _ 5 (BitVec.isLt _), shiftLeft_or _ _ 5 (BitVec.isLt _),
    shiftLeft_or _ _ 5 (BitVec.isLt _), shiftLeft_or _ _ 5 (BitVec.isLt _)]
  simp only [toNat_extract_opcode, toNat_extract_field2, toNat_extract_field3, toNat_extract_field4,
    toNat_extract_field5, toNat_extract_field6]
  omega

/-- The four fields of the immediate form side by side are the word (R63, R87). -/
theorem joinFields_extract : Machine.joinFields (extract w) = w := by
  apply BitVec.eq_of_toNat_eq
  simp only [Machine.joinFields, BitVec.toNat_append]
  rw [shiftLeft_or _ _ 16 (BitVec.isLt _), shiftLeft_or _ _ 5 (BitVec.isLt _), shiftLeft_or _ _ 5 (BitVec.isLt _)]
  simp only [toNat_extract_opcode, toNat_extract_field2, toNat_extract_field3, toNat_extract_immediate]
  omega

/-- Re-encoding the slices of a word with opcode 0 in the register form gives the word (R72). -/
theorem encodeR_extract (h : (extract w).opcode = 0#6) :
    encodeR (extract w).field6 (extract w).field2.toFin (extract w).field3.toFin (extract w).field4.toFin
      (extract w).field5.toFin = w := by
  rw [encodeR, ← h]
  exact append_registerFields_extract w

/-- Re-encoding the slices of a word in the immediate form gives the word (R72). -/
theorem encodeI_extract :
    encodeI (extract w).opcode (extract w).field2.toFin (extract w).field3.toFin (simm (extract w).immediate) = w := by
  rw [encodeI, ofInt_simm]
  exact joinFields_extract w

end Extract

section Masks

variable {w w' mask v : Word} {lo len : Nat}

/-- A mask whose bits in a slice are all 1 keeps that slice. -/
theorem slice_eq_of_masked (hmask : mask.extractLsb' lo len = BitVec.allOnes len) (h : w &&& mask = v) :
    w.extractLsb' lo len = v.extractLsb' lo len := by
  rw [← h, BitVec.extractLsb'_and, hmask, BitVec.and_allOnes]

/-- Words alike under a mask are alike in every slice that the mask keeps. -/
theorem slice_eq_of_masked_eq (h : w &&& mask = w' &&& mask)
    (hmask : mask.extractLsb' lo len = BitVec.allOnes len) : w.extractLsb' lo len = w'.extractLsb' lo len :=
  (slice_eq_of_masked hmask h).trans (slice_eq_of_masked hmask rfl).symm

end Masks

/-! ## The digits of a word -/

theorem hexDigits_hexEncode (w : Word) :
    hexDigits (hexEncode w) = some [w.extractLsb' 28 4, w.extractLsb' 24 4, w.extractLsb' 20 4, w.extractLsb' 16 4,
      w.extractLsb' 12 4, w.extractLsb' 8 4, w.extractLsb' 4 4, w.extractLsb' 0 4] := by
  simp [hexEncode, hexDigits, hexVal_hexDigit]

/-- Decoding the hexadecimal digits of a word gives the word (R86). -/
theorem bitDecode_hexEncode (w : Word) : bitDecode (hexEncode w) = .ok w := by
  have hlen : (hexEncode w).length = Config.requestLength := rfl
  simp only [bitDecode, hlen, hexDigits_hexEncode, ne_eq, not_true_eq_false, if_false]
  congr 1
  have h := w.isLt
  apply BitVec.eq_of_toNat_eq
  simp only [wordOfDigits, List.foldl, BitVec.toNat_ofNat, BitVec.extractLsb'_toNat, Nat.shiftRight_eq_div_pow]
  omega

/-! ## Classify -/

section Classify

variable {f : Fields} {w : Word} {i : Instr}

theorem classify_of_opcode_zero (h : f.opcode = 0#6) : classify f = classifyRegister f := if_pos h

theorem classify_of_opcode_ne_zero (h : f.opcode ≠ 0#6) : classify f = classifyImmediate f := if_neg h

/-- What the register form can be: one row of R66, or unknown by its function code. -/
theorem classifyRegister_cases (f : Fields) :
    (f.field6 = 32#6 ∧
      classifyRegister f = .known (.add f.field2.toFin f.field3.toFin f.field4.toFin f.field5.toFin)) ∨
    (f.field6 = 34#6 ∧
      classifyRegister f = .known (.sub f.field2.toFin f.field3.toFin f.field4.toFin f.field5.toFin)) ∨
    (f.field6 = 36#6 ∧
      classifyRegister f = .known (.and f.field2.toFin f.field3.toFin f.field4.toFin f.field5.toFin)) ∨
    (f.field6 = 37#6 ∧
      classifyRegister f = .known (.or f.field2.toFin f.field3.toFin f.field4.toFin f.field5.toFin)) ∨
    (f.field6 = 38#6 ∧
      classifyRegister f = .known (.xor f.field2.toFin f.field3.toFin f.field4.toFin f.field5.toFin)) ∨
    (f.field6.toNat ∉ [32, 34, 36, 37, 38] ∧ classifyRegister f = .unknown .function f.field6.toFin) := by
  unfold classifyRegister
  split <;> simp_all [← BitVec.toNat_inj]

/-- What the immediate form can be: one row of R67, or unknown by its opcode. -/
theorem classifyImmediate_cases (f : Fields) :
    (f.opcode = 4#6 ∧ classifyImmediate f = .known (.beq f.field2.toFin f.field3.toFin (simm f.immediate))) ∨
    (f.opcode = 5#6 ∧ classifyImmediate f = .known (.bne f.field2.toFin f.field3.toFin (simm f.immediate))) ∨
    (f.opcode = 8#6 ∧ classifyImmediate f = .known (.addi f.field2.toFin f.field3.toFin (simm f.immediate))) ∨
    (f.opcode = 35#6 ∧ classifyImmediate f = .known (.lw f.field2.toFin f.field3.toFin (simm f.immediate))) ∨
    (f.opcode = 43#6 ∧ classifyImmediate f = .known (.sw f.field2.toFin f.field3.toFin (simm f.immediate))) ∨
    (f.opcode.toNat ∉ [4, 5, 8, 35, 43] ∧ classifyImmediate f = .unknown .opcode f.opcode.toFin) := by
  unfold classifyImmediate
  split <;> simp_all [← BitVec.toNat_inj]

/-- An instruction classified from a word encodes to that word: no bit is lost (R87). -/
theorem encode_of_classify (h : classify (extract w) = .known i) : encode i = w := by
  by_cases hop : (extract w).opcode = 0#6
  · rw [classify_of_opcode_zero hop] at h
    have henc := encodeR_extract w hop
    obtain ⟨hc, hi⟩ | ⟨hc, hi⟩ | ⟨hc, hi⟩ | ⟨hc, hi⟩ | ⟨hc, hi⟩ | ⟨-, hi⟩ := classifyRegister_cases (extract w) <;>
      cases hi.symm.trans h <;> rwa [hc] at henc
  · rw [classify_of_opcode_ne_zero hop] at h
    have henc := encodeI_extract w
    obtain ⟨hc, hi⟩ | ⟨hc, hi⟩ | ⟨hc, hi⟩ | ⟨hc, hi⟩ | ⟨hc, hi⟩ | ⟨-, hi⟩ := classifyImmediate_cases (extract w) <;>
      cases hi.symm.trans h <;> rwa [hc] at henc

theorem fieldsOf_of_classify (h : classify (extract w) = .known i) : fieldsOf i = extract w := by
  rw [fieldsOf, encode_of_classify h]

/-- Which words are unknown by their function code (R69, R89). -/
theorem classify_eq_unknown_function_iff {code : Fin 64} :
    classify f = .unknown .function code ↔
      f.opcode = 0#6 ∧ f.field6.toFin = code ∧ f.field6.toNat ∉ [32, 34, 36, 37, 38] := by
  by_cases hop : f.opcode = 0#6
  · rw [classify_of_opcode_zero hop]
    obtain ⟨hc, hi⟩ | ⟨hc, hi⟩ | ⟨hc, hi⟩ | ⟨hc, hi⟩ | ⟨hc, hi⟩ | ⟨hc, hi⟩ := classifyRegister_cases f <;>
      simp [hi, hop, hc]
  · rw [classify_of_opcode_ne_zero hop]
    obtain ⟨-, hi⟩ | ⟨-, hi⟩ | ⟨-, hi⟩ | ⟨-, hi⟩ | ⟨-, hi⟩ | ⟨-, hi⟩ := classifyImmediate_cases f <;>
      simp [hi, hop]

/-- Which words are unknown by their opcode (R69, R89). -/
theorem classify_eq_unknown_opcode_iff {code : Fin 64} :
    classify f = .unknown .opcode code ↔ f.opcode.toFin = code ∧ f.opcode.toNat ∉ [0, 4, 5, 8, 35, 43] := by
  by_cases hop : f.opcode = 0#6
  · rw [classify_of_opcode_zero hop]
    obtain ⟨-, hi⟩ | ⟨-, hi⟩ | ⟨-, hi⟩ | ⟨-, hi⟩ | ⟨-, hi⟩ | ⟨-, hi⟩ := classifyRegister_cases f <;>
      simp [hi, hop]
  · have hne : f.opcode.toNat ≠ 0 := fun h => hop (BitVec.eq_of_toNat_eq h)
    rw [classify_of_opcode_ne_zero hop]
    obtain ⟨hc, hi⟩ | ⟨hc, hi⟩ | ⟨hc, hi⟩ | ⟨hc, hi⟩ | ⟨hc, hi⟩ | ⟨hc, hi⟩ := classifyImmediate_cases f <;>
      simp [hi, hc, hne]

end Classify

end Sys2Proof
end

section
/-! # The encoding's statements (30_encoding.md) -/

namespace Sys2Proof

/-! ## The slices of a word -/

/-- Settles O12: each slice is a quotient and remainder of the word's number, which the two concatenations give back. -/
theorem extractSlices : Obligations.ExtractSlices := by
  intro w
  refine ⟨toNat_extract_opcode w, toNat_extract_field2 w, toNat_extract_field3 w, toNat_extract_field4 w,
    toNat_extract_field5 w, toNat_extract_field6 w, toNat_extract_immediate w, ?_,
    (append_registerFields_extract w).symm, (joinFields_extract w).symm⟩
  rw [toNat_extract_field4, toNat_extract_field5, toNat_extract_field6, toNat_extract_immediate]
  omega

/-! ## The sign-extended immediate -/

/-- `simm` is the two's-complement reading of the raw immediate (R65). -/
theorem simm_eq_toInt (imm : BitVec 16) : simm imm = imm.toInt := by
  rw [BitVec.toInt_eq_msb_cond]
  rfl

theorem immWord_simm (imm : BitVec 16) : Machine.immWord (simm imm) = imm.signExtend 32 := by
  rw [simm_eq_toInt]
  rfl

/-- `simm` by the size of the raw immediate in place of its sign bit (R65). -/
theorem simm_eq_ite (imm : BitVec 16) :
    simm imm = if imm.toNat < 32768 then (imm.toNat : Int) else (imm.toNat : Int) - 65536 := by
  simp only [simm, BitVec.msb_eq_decide, decide_eq_true_eq]
  split <;> split <;> omega

/-- The 32-bit pattern of an immediate, as a number (R65). -/
theorem toNat_immWord_simm (imm : BitVec 16) :
    (Machine.immWord (simm imm)).toNat = if imm.toNat < 32768 then imm.toNat else imm.toNat + 0xFFFF0000 := by
  have h := imm.isLt
  rw [Machine.immWord, BitVec.toNat_ofInt, simm_eq_ite]
  split <;> omega

/-- The immediate that an instruction carries, if it has one (R62, R63). -/
def immediateOf : Instr → Option Int
  | .add _ _ _ _ => none
  | .sub _ _ _ _ => none
  | .and _ _ _ _ => none
  | .or  _ _ _ _ => none
  | .xor _ _ _ _ => none
  | .beq  _ _ imm => some imm
  | .bne  _ _ imm => some imm
  | .addi _ _ imm => some imm
  | .lw   _ _ imm => some imm
  | .sw   _ _ imm => some imm

/-- The classifier gives an instruction no other immediate than the sign-extended one (R65). -/
theorem eq_simm_of_classify {f : Fields} {i : Instr} {k : Int} (h : classify f = .known i)
    (hk : immediateOf i = some k) : k = simm f.immediate := by
  by_cases hop : f.opcode = 0#6
  · rw [classify_of_opcode_zero hop] at h
    obtain ⟨-, hi⟩ | ⟨-, hi⟩ | ⟨-, hi⟩ | ⟨-, hi⟩ | ⟨-, hi⟩ | ⟨-, hi⟩ := classifyRegister_cases f <;>
      cases hi.symm.trans h <;> cases hk
  · rw [classify_of_opcode_ne_zero hop] at h
    obtain ⟨-, hi⟩ | ⟨-, hi⟩ | ⟨-, hi⟩ | ⟨-, hi⟩ | ⟨-, hi⟩ | ⟨-, hi⟩ := classifyImmediate_cases f <;>
      cases hi.symm.trans h <;> cases hk <;> rfl

/-- Settles O13: `simm` by the size of the raw immediate, its pattern as a number, and the classifier's only use of the
immediate. -/
theorem immediateSignExtension : Obligations.ImmediateSignExtension := by
  intro imm
  have hlt := imm.isLt
  have hsimm := simm_eq_ite imm
  have hword := toNat_immWord_simm imm
  refine ⟨fun h => ?_, fun h => ?_, by omega, by omega, immWord_simm imm, ?_⟩
  · rw [if_pos h] at hsimm hword
    exact ⟨hsimm, hword⟩
  · rw [if_neg (by omega)] at hsimm hword
    exact ⟨hsimm, hword⟩
  · rintro w rs rt k rfl ⟨i, hmem, hcls⟩
    refine eq_simm_of_classify hcls ?_
    have himm : ∀ j ∈ [Instr.addi rs rt k, .lw rs rt k, .sw rs rt k, .beq rs rt k, .bne rs rt k],
        immediateOf j = some k := by simp [immediateOf]
    exact himm i hmem

/-! ## The rows of the table -/

/-- The word of every instruction lies in its row (R66, R67). -/
theorem encode_in_row : ∀ i : Instr, Laws.TableRow.Statement i
  | .add rs rt rd shamt => Laws.TableRow.add rs rt rd shamt
  | .sub rs rt rd shamt => Laws.TableRow.sub rs rt rd shamt
  | .and rs rt rd shamt => Laws.TableRow.and rs rt rd shamt
  | .or rs rt rd shamt => Laws.TableRow.or rs rt rd shamt
  | .xor rs rt rd shamt => Laws.TableRow.xor rs rt rd shamt
  | .beq rs rt imm => Laws.TableRow.beq rs rt imm
  | .bne rs rt imm => Laws.TableRow.bne rs rt imm
  | .addi rs rt imm => Laws.TableRow.addi rs rt imm
  | .lw rs rt imm => Laws.TableRow.lw rs rt imm
  | .sw rs rt imm => Laws.TableRow.sw rs rt imm

section Rows

variable {w : Word}

/-- A word classified as an instruction lies in that instruction's row. -/
theorem row_of_classify {i : Instr} (h : classify (extract w) = .known i) :
    w &&& Laws.TableRow.tableMask i = Laws.TableRow.tableMatch i :=
  encode_of_classify h ▸ encode_in_row i

/-- A word in a register-form row is classified by opcode 0 and the row's function code. -/
theorem classify_of_registerMask (funct : BitVec 6) (h : w &&& 0xFC00003F#32 = 0#26 ++ funct) :
    classify (extract w) = classify { extract w with opcode := 0#6, field6 := funct } := by
  have hop : (extract w).opcode = 0#6 :=
    (slice_eq_of_masked (by decide) h).trans
      ((BitVec.extractLsb'_append_eq_of_le (by decide)).trans BitVec.extractLsb'_zero)
  have hfunct : (extract w).field6 = funct :=
    (slice_eq_of_masked (by decide) h).trans BitVec.extractLsb'_append_eq_right
  rw [← hop, ← hfunct]

/-- A word in an immediate-form row is classified by the row's opcode. -/
theorem classify_of_immediateMask (opcode : BitVec 6) (h : w &&& 0xFC000000#32 = opcode ++ 0#26) :
    classify (extract w) = classify { extract w with opcode := opcode } := by
  have hop : (extract w).opcode = opcode :=
    (slice_eq_of_masked (by decide) h).trans BitVec.extractLsb'_append_eq_left
  rw [← hop]

/-- Settles O14: a masked word gives the classifier its codes, and an instruction encodes to the word it came from, which
lies in its row. -/
theorem tableRowsSelect : Obligations.TableRowsSelect := fun _ =>
  ⟨⟨fun h => ⟨_, _, _, _, classify_of_registerMask 32#6 h⟩, fun ⟨_, _, _, _, h⟩ => row_of_classify h⟩,
   ⟨fun h => ⟨_, _, _, _, classify_of_registerMask 34#6 h⟩, fun ⟨_, _, _, _, h⟩ => row_of_classify h⟩,
   ⟨fun h => ⟨_, _, _, _, classify_of_registerMask 36#6 h⟩, fun ⟨_, _, _, _, h⟩ => row_of_classify h⟩,
   ⟨fun h => ⟨_, _, _, _, classify_of_registerMask 37#6 h⟩, fun ⟨_, _, _, _, h⟩ => row_of_classify h⟩,
   ⟨fun h => ⟨_, _, _, _, classify_of_registerMask 38#6 h⟩, fun ⟨_, _, _, _, h⟩ => row_of_classify h⟩,
   ⟨fun h => ⟨_, _, _, classify_of_immediateMask 4#6 h⟩, fun ⟨_, _, _, h⟩ => row_of_classify h⟩,
   ⟨fun h => ⟨_, _, _, classify_of_immediateMask 5#6 h⟩, fun ⟨_, _, _, h⟩ => row_of_classify h⟩,
   ⟨fun h => ⟨_, _, _, classify_of_immediateMask 8#6 h⟩, fun ⟨_, _, _, h⟩ => row_of_classify h⟩,
   ⟨fun h => ⟨_, _, _, classify_of_immediateMask 35#6 h⟩, fun ⟨_, _, _, h⟩ => row_of_classify h⟩,
   ⟨fun h => ⟨_, _, _, classify_of_immediateMask 43#6 h⟩, fun ⟨_, _, _, h⟩ => row_of_classify h⟩⟩

end Rows

/-! ## The unknown words -/

/-- Settles O15: the classifier's two unknown cases, and the step that only reports. -/
theorem unknownInstructionReported : Obligations.UnknownInstructionReported := by
  intro w code
  refine ⟨?_, ?_, fun s req rest selector hreq hdec hcls => Machine.step_of_unknown hreq hdec hcls⟩
  · rw [classify_eq_unknown_function_iff, ← toNat_extract_opcode, ← toNat_extract_field6, ← BitVec.toNat_inj]
    constructor
    · rintro ⟨hop, rfl, hrow⟩
      exact ⟨hop, rfl, hrow⟩
    · rintro ⟨hop, hcode, hrow⟩
      exact ⟨hop, Fin.ext hcode.symm, hcode ▸ hrow⟩
  · rw [classify_eq_unknown_opcode_iff, ← toNat_extract_opcode]
    constructor
    · rintro ⟨rfl, hrow⟩
      exact ⟨rfl, hrow⟩
    · rintro ⟨hcode, hrow⟩
      exact ⟨Fin.ext hcode.symm, hcode ▸ hrow⟩

end Sys2Proof

namespace Sys2Proof.Machine

/-! ## The bits that change nothing -/

/-- The outcome of a classified word: that of the instruction, or the report of the code (R140). -/
def outcomeOfClassified (s : State) : Classified → StepOutcome
  | .known i               => outcomeOf s i
  | .unknown selector code => .unrecognized selector code

/-- Every decoded word, known or unknown, is a completed step: the word its outcome names is written, and the word's own
fields, its classification and the outcome are reported (R92). -/
theorem step_submitNext_hexEncode (s : State) (w : Word) :
    step (submitNext (hexEncode w) s) =
      .next (respond (.done (extract w) (classify (extract w)) (outcomeOfClassified s (classify (extract w))))
        (writeOutcome (outcomeOfClassified s (classify (extract w))) s)) := by
  have hreq : (submitNext (hexEncode w) s).requests = hexEncode w :: s.requests := rfl
  cases hcls : classify (extract w) with
  | unknown selector code => exact step_of_unknown hreq (bitDecode_hexEncode w) hcls
  | known i =>
    rw [step_of_known hreq (bitDecode_hexEncode w) hcls, ← fieldsOf_of_classify hcls]
    have hout : outcomeOf (submitNext (hexEncode w) s) i = outcomeOf s i := outcomeOf_withRequests s _ i
    rw [hout]
    rfl

@[simp] theorem writeOutcome_responses (o : StepOutcome) (s : State) :
    (writeOutcome o s).responses = s.responses := by
  cases o <;> rfl

section DontCare

variable {f f' : Fields}

/-- With opcode 0 the shift amount has no part in the outcome (R68). -/
theorem outcomeOfClassified_of_opcode_zero (s : State) (h : f.opcode = 0#6) (hop : f.opcode = f'.opcode)
    (h2 : f.field2 = f'.field2) (h3 : f.field3 = f'.field3) (h4 : f.field4 = f'.field4) (h6 : f.field6 = f'.field6) :
    outcomeOfClassified s (classify f) = outcomeOfClassified s (classify f') := by
  rw [classify_of_opcode_zero h, classify_of_opcode_zero (hop ▸ h)]
  simp only [classifyRegister, h2, h3, h4, h6]
  split <;> rfl

/-- The immediate of BEQ and BNE has no part in the outcome (R68). -/
theorem outcomeOfClassified_of_branch (s : State) (h : f.opcode = 4#6 ∨ f.opcode = 5#6) (hop : f.opcode = f'.opcode)
    (h2 : f.field2 = f'.field2) (h3 : f.field3 = f'.field3) :
    outcomeOfClassified s (classify f) = outcomeOfClassified s (classify f') := by
  obtain h | h := h <;>
    simp [classify, classifyImmediate, outcomeOfClassified, outcomeOf, ← hop, h, h2, h3]

end DontCare

/-- Settles O49: words that agree in the bits the outcome depends on have the same outcome, and a step writes the word
that its outcome names and no other. -/
theorem dontCareBitsChangeNothing : Obligations.DontCareBitsChangeNothing := by
  intro s w w' h
  have hout : outcomeOfClassified s (classify (extract w)) = outcomeOfClassified s (classify (extract w')) := by
    simp only [← toNat_extract_opcode] at h
    obtain ⟨hop, hw⟩ | ⟨hop, hw⟩ := h
    · exact outcomeOfClassified_of_opcode_zero s (BitVec.eq_of_toNat_eq hop)
        (slice_eq_of_masked_eq hw (by decide)) (slice_eq_of_masked_eq hw (by decide))
        (slice_eq_of_masked_eq hw (by decide)) (slice_eq_of_masked_eq hw (by decide))
        (slice_eq_of_masked_eq hw (by decide))
    · exact outcomeOfClassified_of_branch s (hop.imp BitVec.eq_of_toNat_eq BitVec.eq_of_toNat_eq)
        (slice_eq_of_masked_eq hw (by decide)) (slice_eq_of_masked_eq hw (by decide))
        (slice_eq_of_masked_eq hw (by decide))
  have hstep' := step_submitNext_hexEncode s w'
  rw [← hout] at hstep'
  exact ⟨_, _, classify (extract w), classify (extract w'), outcomeOfClassified s (classify (extract w)),
    step_submitNext_hexEncode s w, hstep', ⟨fun _ => rfl, fun _ => rfl⟩, by simp, by simp⟩

end Sys2Proof.Machine
end

section
/-! # What BitDecoder answers (40_decode_pipeline.md R80 to R84) -/

namespace Sys2Proof

/-! ## The digits -/

/-- A digit character's value is its value in R81's table: the table lists what `hexVal` gives, and nothing else. -/
theorem hexVal_eq_some_iff_mem_hexTable (c : Char) (d : BitVec 4) :
    hexVal c = some d ↔ (c, d.toNat) ∈ Machine.hexTable := by
  constructor
  · intro h
    unfold hexVal at h
    -- One case per row of `hexVal`, whose character and value are then literals; the last row has no value.
    split at h <;> cases h <;> decide
  · intro h
    have hrow : ∀ p ∈ Machine.hexTable, hexVal p.1 = some (BitVec.ofNat 4 p.2) := by decide
    simpa using hrow _ h

/-- A string has digits exactly when each character has its own, in the same order (R81). -/
theorem hexDigits_eq_some_iff {cs : List Char} {ds : List (BitVec 4)} :
    hexDigits cs = some ds ↔ List.Forall₂ (fun c d => hexVal c = some d) cs ds := by
  induction cs generalizing ds with
  | nil => simp [hexDigits, eq_comm]
  | cons c cs ih =>
    rw [List.forall₂_cons_left_iff]
    simp only [← ih, hexDigits]
    cases hexVal c <;> cases hexDigits cs <;> simp [eq_comm]

/-- The word of eight digits as a number: it fits in 32 bits, so the sum of R81 loses nothing. -/
theorem toNat_wordOfDigits (d0 d1 d2 d3 d4 d5 d6 d7 : BitVec 4) :
    (wordOfDigits [d0, d1, d2, d3, d4, d5, d6, d7]).toNat =
      d0.toNat * 16 ^ 7 + d1.toNat * 16 ^ 6 + d2.toNat * 16 ^ 5 + d3.toNat * 16 ^ 4 +
        d4.toNat * 16 ^ 3 + d5.toNat * 16 ^ 2 + d6.toNat * 16 + d7.toNat := by
  simp only [wordOfDigits, List.foldl, BitVec.toNat_ofNat]
  omega

/-! ## The three answers -/

section Answers

variable {req : Request} {w : Word}

theorem bitDecode_of_length_ne (h : req.length ≠ 8) : bitDecode req = .error .invalidLength := if_pos h

theorem bitDecode_of_hexDigits_none (h : req.length = 8) (hd : hexDigits req = none) :
    bitDecode req = .error .invalidDigit := by
  simp [bitDecode, Config.requestLength, h, hd]

theorem bitDecode_of_hexDigits_some {ds : List (BitVec 4)} (h : req.length = 8) (hd : hexDigits req = some ds) :
    bitDecode req = .ok (wordOfDigits ds) := by
  simp [bitDecode, Config.requestLength, h, hd]

/-- The length alone decides whether the error is `InvalidLength`, whatever the characters (R82, log entry 9). -/
theorem bitDecode_eq_invalidLength_iff : bitDecode req = .error .invalidLength ↔ req.length ≠ 8 := by
  refine ⟨fun herr hlen => ?_, bitDecode_of_length_ne⟩
  cases hd : hexDigits req with
  | none => cases herr.symm.trans (bitDecode_of_hexDigits_none hlen hd)
  | some ds => cases herr.symm.trans (bitDecode_of_hexDigits_some hlen hd)

/-- Only a request of eight digits has a word, which is the word of its digits (R80, R81). -/
theorem bitDecode_eq_ok_iff :
    bitDecode req = .ok w ↔ req.length = 8 ∧ ∃ ds, hexDigits req = some ds ∧ w = wordOfDigits ds := by
  constructor
  · intro hok
    by_cases hlen : req.length = 8
    · cases hd : hexDigits req with
      | none => cases hok.symm.trans (bitDecode_of_hexDigits_none hlen hd)
      | some ds => exact ⟨hlen, ds, rfl, Except.ok.inj (hok.symm.trans (bitDecode_of_hexDigits_some hlen hd))⟩
    · cases hok.symm.trans (bitDecode_of_length_ne hlen)
  · rintro ⟨hlen, ds, hd, rfl⟩
    exact bitDecode_of_hexDigits_some hlen hd

end Answers

/-- Settles O10: the digits of a string stand over its characters one by one, and eight of them make the word by
positional value. -/
theorem digitsMakeTheWord : Obligations.DigitsMakeTheWord := by
  refine ⟨hexVal_eq_some_iff_mem_hexTable, fun req w => ?_⟩
  simp only [bitDecode_eq_ok_iff, hexDigits_eq_some_iff]
  constructor
  · rintro ⟨hlen, ds, hds, rfl⟩
    match req, hlen, ds, hds with
    | [c0, c1, c2, c3, c4, c5, c6, c7], _, _,
        .cons h0 (.cons h1 (.cons h2 (.cons h3 (.cons h4 (.cons h5 (.cons h6 (.cons h7 .nil))))))) =>
      exact ⟨c0, c1, c2, c3, c4, c5, c6, c7, _, _, _, _, _, _, _, _, rfl, h0, h1, h2, h3, h4, h5, h6, h7,
        toNat_wordOfDigits ..⟩
  · rintro ⟨c0, c1, c2, c3, c4, c5, c6, c7, d0, d1, d2, d3, d4, d5, d6, d7, rfl, h0, h1, h2, h3, h4, h5, h6, h7, hw⟩
    have hds : List.Forall₂ (fun c d => hexVal c = some d) [c0, c1, c2, c3, c4, c5, c6, c7]
        [d0, d1, d2, d3, d4, d5, d6, d7] := by simp [h0, h1, h2, h3, h4, h5, h6, h7]
    exact ⟨rfl, _, hds, BitVec.eq_of_toNat_eq (hw.trans (toNat_wordOfDigits ..).symm)⟩

end Sys2Proof

namespace Sys2Proof.Machine

/-! ## The rejected request -/

/-- Settles O9: the step's lemma for a decode error, with `reject` written out. -/
theorem decodeFailureRejects : Obligations.DecodeFailureRejects := fun _ _ _ _ hreq hdec =>
  step_of_decodeError hreq hdec

/-- Settles O7: the length decides the error, and a step that raises an error changes no word. -/
theorem lengthErrorExactly : Obligations.LengthErrorExactly := by
  refine fun req => ⟨bitDecode_eq_invalidLength_iff, fun s rest hreq hlen => ?_⟩
  have hstep := step_of_decodeError hreq (bitDecode_of_length_ne hlen)
  obtain ⟨hsame, htaken, hresponse⟩ := raiseError_spec (.rejected .invalidLength) { s with requests := rest }
  exact ⟨_, hstep, hsame, htaken, hresponse⟩

end Sys2Proof.Machine
end

section
/-! # The ALU (41_alu.md R100 to R107)

The words of the spec's encodings are the encoder's, so the classifier reads their operands back; each ALU instruction
writes back its outcome, which for ADD, SUB and ADDI is the pattern of the exact integer result. -/

namespace Sys2Proof.Machine

/-! ## The words of the encodings -/

theorem ofNat_val_eq_ofFin (r : Fin 32) : BitVec.ofNat 5 r.val = BitVec.ofFin (w := 5) r :=
  BitVec.ofFin_eq_ofNat.symm

theorem registerWord_eq_encodeR (rs rt rd : RegIndex) (sh : Fin 32) (funct : BitVec 6) :
    registerWord rs rt rd sh funct = encodeR funct rs rt rd sh := by
  simp only [registerWord, encodeR, ofNat_val_eq_ofFin]

theorem immediateWord_eq_encodeI (opcode : BitVec 6) (rs rt : RegIndex) (imm : BitVec 16) :
    immediateWord opcode rs rt imm = encodeI opcode rs rt (simm imm) := by
  simp only [immediateWord, encodeI, ofInt_simm, ofNat_val_eq_ofFin]

/-- The classifier sees the operands of a register-form word as they were put in (R62). -/
theorem classify_registerWord (rs rt rd : RegIndex) (sh : Fin 32) (funct : BitVec 6) :
    classify (extract (registerWord rs rt rd sh funct)) =
      classify { extract (registerWord rs rt rd sh funct) with
        opcode := 0#6, field2 := .ofFin rs, field3 := .ofFin rt, field4 := .ofFin rd, field5 := .ofFin sh,
        field6 := funct } := by
  rw [registerWord_eq_encodeR]
  obtain ⟨hop, h2, h3, h4, h5, h6⟩ := extract_encodeR funct rs rt rd sh
  generalize extract (encodeR funct rs rt rd sh) = f at *
  rw [← hop, ← h2, ← h3, ← h4, ← h5, ← h6]

/-- The classifier sees the operands of an immediate-form word as they were put in (R63). -/
theorem classify_immediateWord (opcode : BitVec 6) (rs rt : RegIndex) (imm : BitVec 16) :
    classify (extract (immediateWord opcode rs rt imm)) =
      classify { extract (immediateWord opcode rs rt imm) with
        opcode := opcode, field2 := .ofFin rs, field3 := .ofFin rt, immediate := imm } := by
  rw [immediateWord_eq_encodeI]
  obtain ⟨hop, h2, h3, himm⟩ := extract_encodeI opcode rs rt (simm imm)
  rw [ofInt_simm] at himm
  generalize extract (encodeI opcode rs rt (simm imm)) = f at *
  rw [← hop, ← h2, ← h3, ← himm]

/-! ## The exact result and its pattern -/

theorem toNat_ofInt_eq_emod (e : Int) : ((BitVec.ofInt 32 e).toNat : Int) = e % 2 ^ 32 := by
  rw [BitVec.toNat_ofInt]
  omega

theorem add_eq_ofInt_toInt (a b : Word) : a + b = BitVec.ofInt 32 (a.toInt + b.toInt) := by
  rw [BitVec.ofInt_add, BitVec.ofInt_toInt, BitVec.ofInt_toInt]

theorem add_eq_ofInt_toNat (a b : Word) : a + b = BitVec.ofInt 32 ((a.toNat : Int) + b.toNat) := by
  simp [BitVec.ofInt_add]

theorem sub_eq_ofInt_toInt (a b : Word) : a - b = BitVec.ofInt 32 (a.toInt - b.toInt) := by
  rw [Int.sub_eq_add_neg, BitVec.ofInt_add, BitVec.ofInt_neg, BitVec.ofInt_toInt, BitVec.ofInt_toInt,
    BitVec.sub_eq_add_neg]

theorem sub_eq_ofInt_toNat (a b : Word) : a - b = BitVec.ofInt 32 ((a.toNat : Int) - b.toNat) := by
  simp [Int.sub_eq_add_neg, BitVec.ofInt_add, BitVec.ofInt_neg, BitVec.sub_eq_add_neg]

theorem add_immWord_eq_ofInt (a : Word) (imm : Int) : a + immWord imm = BitVec.ofInt 32 (a.toInt + imm) :=
  effectiveAddress32_eq a imm

/-! ## The instructions -/

section RegisterWrite

variable {s : State} {i : Instr} {w v : Word} {rd : RegIndex}

theorem exec_eq_next_writeBack (hout : outcomeOf s i = .regWritten rd v) :
    exec i s = .next (writeBack i rd v s) := by
  rw [exec_eq_next_complete, hout]
  rfl

theorem readReg_of_exec {t : State} (hexec : exec i s = .next t) (hout : outcomeOf s i = .regWritten rd v) :
    readReg rd t = v := by
  obtain rfl : writeBack i rd v s = t := Host.Outcome.next.inj ((exec_eq_next_writeBack hout).symm.trans hexec)
  exact readReg_writeReg_same rd v s

/-- An instruction whose outcome is a register write completes by that write alone, and reports its word's fields and
the value written (R92, R101); `P` is what is to be known of that value. -/
theorem exec_of_outcomeOf_regWritten {P : Word → Prop} (hcls : classify (extract w) = .known i)
    (hout : outcomeOf s i = .regWritten rd v) (hv : P v) :
    ∃ (t : State) (v : Word), exec i s = .next t ∧ P v ∧ OnlyRegister rd v s t ∧
      Responds (.done (extract w) (.known i) (.regWritten rd v)) s t := by
  obtain ⟨hreg, hresp⟩ := writeBack_spec i rd v s
  exact ⟨_, v, exec_eq_next_writeBack hout, hv, hreg, fieldsOf_of_classify hcls ▸ hresp⟩

end RegisterWrite

/-- Settles O31: the sum of two words as a number. -/
theorem addWritesSum : Obligations.AddWritesSum := fun rs rt rd sh =>
  have hcls := classify_registerWord rs rt rd sh 32#6
  ⟨hcls, fun _ => exec_of_outcomeOf_regWritten hcls rfl (BitVec.toNat_add _ _)⟩

/-- Settles O32: the difference of two words is the pattern of the exact difference. -/
theorem subWritesDifference : Obligations.SubWritesDifference := fun rs rt rd sh =>
  have hcls := classify_registerWord rs rt rd sh 34#6
  ⟨hcls, fun _ => exec_of_outcomeOf_regWritten hcls rfl
    (by rw [sub_eq_ofInt_toNat, toNat_ofInt_eq_emod])⟩

/-- Settles O33: each bit of a conjunction. -/
theorem andWritesBitwiseAnd : Obligations.AndWritesBitwiseAnd := fun rs rt rd sh =>
  have hcls := classify_registerWord rs rt rd sh 36#6
  ⟨hcls, fun _ => exec_of_outcomeOf_regWritten hcls rfl fun _ _ => BitVec.getLsbD_and⟩

/-- Settles O34: each bit of a disjunction. -/
theorem orWritesBitwiseOr : Obligations.OrWritesBitwiseOr := fun rs rt rd sh =>
  have hcls := classify_registerWord rs rt rd sh 37#6
  ⟨hcls, fun _ => exec_of_outcomeOf_regWritten hcls rfl fun _ _ => BitVec.getLsbD_or⟩

/-- Settles O35: each bit of an exclusive disjunction, which for Booleans is being different. -/
theorem xorWritesBitwiseXor : Obligations.XorWritesBitwiseXor := fun rs rt rd sh =>
  have hcls := classify_registerWord rs rt rd sh 38#6
  ⟨hcls, fun _ => exec_of_outcomeOf_regWritten hcls rfl fun _ _ =>
    BitVec.getLsbD_xor.trans (by rw [Bool.bne_eq_xor])⟩

/-- Settles O36: the sum with the immediate is the pattern of the exact sum; the destination is field3. -/
theorem addiWritesSum : Obligations.AddiWritesSum := fun rs rt imm =>
  have hcls := classify_immediateWord 8#6 rs rt imm
  ⟨hcls, fun _ => exec_of_outcomeOf_regWritten hcls rfl
    (by rw [add_immWord_eq_ofInt, toNat_ofInt_eq_emod])⟩

/-! ## Overflow -/

/-- The signed reading of an exact result's pattern: the result itself when it fits, else 2^32 away from it (R100). -/
theorem toInt_wraps_of_eq_ofInt {v : Word} {e : Int} (hv : v = BitVec.ofInt 32 e) (hlo : -(3 * 2 ^ 31) ≤ e)
    (hhi : e < 3 * 2 ^ 31) :
    (-2 ^ 31 ≤ e → e ≤ 2 ^ 31 - 1 → v.toInt = e) ∧
    (2 ^ 31 - 1 < e → v.toInt = e - 2 ^ 32) ∧
    (e < -2 ^ 31 → v.toInt = e + 2 ^ 32) ∧ v = BitVec.ofInt 32 e := by
  have hread : v.toInt = e.bmod (2 ^ 32) := by rw [hv, BitVec.toInt_ofInt]
  rw [Int.bmod_def] at hread
  exact ⟨by omega, by omega, by omega, hv⟩

/-- A register write is reported with no error. -/
theorem exec_without_error {s : State} {i : Instr} (hout : ∃ rd v, outcomeOf s i = .regWritten rd v) :
    ∃ (t : State) (r : Response), exec i s = .next t ∧ t.responses = s.responses ++ [r] ∧ errorKindOf r = none := by
  obtain ⟨rd, v, hout⟩ := hout
  exact ⟨_, _, exec_eq_next_writeBack hout, rfl, rfl⟩

/-- Settles O37: each of ADD, SUB and ADDI writes the pattern of its exact result, which is within the range where one
2^32 brings it back; the six ALU instructions have a register write as their outcome. -/
theorem overflowWrapsSilently : Obligations.OverflowWrapsSilently := by
  have bounds (a : Word) : -2 ^ 31 ≤ a.toInt ∧ a.toInt < 2 ^ 31 := ⟨a.le_toInt, a.toInt_lt⟩
  refine ⟨fun s t i rd exact hexec hi => ?_, fun a b => ⟨?_, ?_⟩, fun s i rs rt rd sh imm hi => exec_without_error ?_⟩
  · obtain ⟨rs, rt, sh, rfl, rfl⟩ | ⟨rs, rt, sh, rfl, rfl⟩ | ⟨rs, imm, rfl, hwf, rfl⟩ := hi
    · have hs := bounds (readReg rs s)
      have ht := bounds (readReg rt s)
      have hread := (readReg_of_exec hexec rfl).trans (add_eq_ofInt_toInt _ _)
      exact toInt_wraps_of_eq_ofInt hread (by omega) (by omega)
    · have hs := bounds (readReg rs s)
      have ht := bounds (readReg rt s)
      have hread := (readReg_of_exec hexec rfl).trans (sub_eq_ofInt_toInt _ _)
      exact toInt_wraps_of_eq_ofInt hread (by omega) (by omega)
    · have hs := bounds (readReg rs s)
      have himm : -32768 ≤ imm ∧ imm ≤ 32767 := by simpa [WellFormed, immediateFits] using hwf
      have hread := (readReg_of_exec hexec rfl).trans (add_immWord_eq_ofInt _ _)
      exact toInt_wraps_of_eq_ofInt hread (by omega) (by omega)
  · rw [← add_eq_ofInt_toInt, ← add_eq_ofInt_toNat]
  · rw [← sub_eq_ofInt_toInt, ← sub_eq_ofInt_toNat]
  · simp only [List.mem_cons, List.not_mem_nil, or_false] at hi
    obtain rfl | rfl | rfl | rfl | rfl | rfl := hi <;> exact ⟨_, _, rfl⟩

end Sys2Proof.Machine
end

section
/-! # The memory interface instructions (42_load_store.md R120, R121)

An access whose effective address is an index reaches that word; any other is reported with the wrapped address. -/

namespace Sys2Proof.Machine

section MemoryAccess

variable {s : State} {i : Instr} {w v : Word} {rs rt : RegIndex} {imm : Int} {a : MemIndex}

/-- An LW whose effective address is index `a` loads word `a` (R120). -/
theorem outcomeOf_lw_of_effectiveAddress (ha : effectiveAddress (readReg rs s) imm = (a.val : Int)) :
    outcomeOf s (.lw rs rt imm) = .regWritten rt (memRead a s) := by
  have hidx := (memIndex_eq_some _ _ _).mpr ha
  simp [outcomeOf, hidx]

/-- An SW whose effective address is index `a` stores its source register to word `a` (R121). -/
theorem outcomeOf_sw_of_effectiveAddress (ha : effectiveAddress (readReg rs s) imm = (a.val : Int)) :
    outcomeOf s (.sw rs rt imm) = .memWritten a (readReg rt s) := by
  have hidx := (memIndex_eq_some _ _ _).mpr ha
  simp [outcomeOf, hidx]

/-- An instruction whose outcome is a memory write completes by that write alone, and reports its word's fields and the
value written (R92, R121). -/
theorem exec_of_outcomeOf_memWritten (hcls : classify (extract w) = .known i)
    (hout : outcomeOf s i = .memWritten a v) :
    ∃ t : State, exec i s = .next t ∧ OnlyMemWord a v s t ∧
      Responds (.done (extract w) (.known i) (.memWritten a v)) s t := by
  obtain ⟨hmem, hresp⟩ := report_memWrite_spec i (.memWritten a v) a v s
  refine ⟨_, exec_eq_next_complete i s, ?_⟩
  rw [hout]
  exact ⟨hmem, fieldsOf_of_classify hcls ▸ hresp⟩

/-- An LW or SW whose effective address is below 0 or at least 256 completes with every word kept, and reports the exact
sum modulo 2^32 (R43, R153). -/
theorem exec_of_address_outside (hcls : classify (extract w) = .known i)
    (hi : i = .lw rs rt imm ∨ i = .sw rs rt imm)
    (hout : effectiveAddress (readReg rs s) imm < 0 ∨ 256 ≤ effectiveAddress (readReg rs s) imm) :
    ∃ t : State, exec i s = .next t ∧ SameArch s t ∧
      Responds (.done (extract w) (.known i)
        (.outOfRange (BitVec.ofInt 32 (effectiveAddress (readReg rs s) imm)))) s t := by
  have hrange : ¬ InRange (effectiveAddress (readReg rs s) imm) := by
    simp only [InRange, Config.memoryWords]
    omega
  obtain ⟨hsame, hresp⟩ := report_spec i (.outOfRange (effectiveAddress32 (readReg rs s) imm)) s
  refine ⟨_, exec_eq_next_complete i s, ?_⟩
  rw [outcomeOf_of_not_inRange hi hrange, ← effectiveAddress32_eq]
  exact ⟨hsame, fieldsOf_of_classify hcls ▸ hresp⟩

end MemoryAccess

/-- Settles O40: in range LW is a register write of the word it reaches; out of range it is LW's case of the error that
LW and SW share. -/
theorem loadWord : Obligations.LoadWord := by
  intro rs rt imm
  have hcls := classify_immediateWord 0b100011#6 rs rt imm
  refine ⟨hcls, fun s => ⟨fun a ha => ?_, exec_of_address_outside hcls (.inl rfl)⟩⟩
  obtain ⟨t, _, hexec, rfl, hdone⟩ := exec_of_outcomeOf_regWritten (P := (· = memRead a s)) hcls
    (outcomeOf_lw_of_effectiveAddress ha) rfl
  exact ⟨t, hexec, hdone⟩

/-- Settles O41: in range SW is a memory write of its source register; out of range it is SW's case of the error that LW
and SW share. -/
theorem storeWord : Obligations.StoreWord := fun rs rt imm =>
  have hcls := classify_immediateWord 0b101011#6 rs rt imm
  ⟨hcls, fun _ => ⟨fun _ ha => exec_of_outcomeOf_memWritten hcls (outcomeOf_sw_of_effectiveAddress ha),
    exec_of_address_outside hcls (.inr rfl)⟩⟩

end Sys2Proof.Machine
end

section
/-! # The register comparator (43_branch_compare.md R130 to R132)

A verdict is reported and nothing is written; BEQ and BNE differ only in what their verdict says of the two registers. -/

namespace Sys2Proof.Machine

theorem equalVerdict_eq_true_iff (a b : Word) : equalVerdict a b = true ↔ a = b := beq_iff_eq

theorem notEqualVerdict_eq_true_iff (a b : Word) : notEqualVerdict a b = true ↔ a ≠ b := bne_iff_ne

/-- An instruction whose outcome is a verdict completes with every word kept, and reports its word's fields and that
verdict (R92, R130); `P` is what the verdict decides. -/
theorem exec_of_outcomeOf_verdict {s : State} {i : Instr} {w : Word} {taken : Bool} {P : Prop}
    (hcls : classify (extract w) = .known i) (hout : outcomeOf s i = .verdict taken) (hP : taken = true ↔ P) :
    ∃ (t : State) (taken : Bool), exec i s = .next t ∧ (taken = true ↔ P) ∧ SameArch s t ∧
      Responds (.done (extract w) (.known i) (.verdict taken)) s t := by
  obtain ⟨hsame, hresp⟩ := report_spec i (.verdict taken) s
  have hexec := exec_eq_next_complete i s
  rw [hout] at hexec
  exact ⟨_, taken, hexec, hP, hsame, fieldsOf_of_classify hcls ▸ hresp⟩

/-- Settles O45: BEQ's outcome is the verdict of equality. -/
theorem branchEqualVerdict : Obligations.BranchEqualVerdict := fun rs rt imm =>
  have hcls := classify_immediateWord 0b000100#6 rs rt imm
  ⟨hcls, fun _ => exec_of_outcomeOf_verdict hcls rfl (equalVerdict_eq_true_iff _ _)⟩

/-- Settles O46: BNE's outcome is the verdict of difference. -/
theorem branchNotEqualVerdict : Obligations.BranchNotEqualVerdict := fun rs rt imm =>
  have hcls := classify_immediateWord 0b000101#6 rs rt imm
  ⟨hcls, fun _ => exec_of_outcomeOf_verdict hcls rfl (notEqualVerdict_eq_true_iff _ _)⟩

end Sys2Proof.Machine
end

section
/-! # The errors (60_exceptions.md R150, R153)

An error exists only in the response: no outcome that carries one names a word to write, so a step that reports one takes
its request, adds its response and does nothing else. -/

namespace Sys2Proof.Machine

/-! ## The one response a served request adds -/

@[simp] theorem reject_responses (e : DecodeError) (s : State) :
    (reject e s).responses = s.responses ++ [.rejected e] := rfl

@[simp] theorem execUnknown_responses (w : Word) (selector : Selector) (code : Fin 64) (s : State) :
    (execUnknown w selector code s).responses =
      s.responses ++ [.done (extract w) (.unknown selector code) (.unrecognized selector code)] := rfl

@[simp] theorem complete_responses (i : Instr) (o : StepOutcome) (s : State) :
    (complete i o s).responses = s.responses ++ [.done (fieldsOf i) (.known i) o] := by
  simp [complete, report]

/-! ## No word is written -/

/-- An outcome that is reported as an error writes no word: the two that write are reported with none (R151, R153). -/
theorem writeOutcome_of_errorKindOf_ne_none {f : Fields} {c : Classified} {o : StepOutcome}
    (h : errorKindOf (.done f c o) ≠ none) (s : State) : writeOutcome o s = s := by
  cases o with
  | regWritten rd v | memWritten a v => exact absurd rfl h
  | verdict taken | unrecognized selector code | outOfRange ea32 => rfl

/-- An instruction that completes with an error only reports it. -/
theorem complete_of_errorKindOf_ne_none {i : Instr} {o : StepOutcome}
    (h : errorKindOf (.done (fieldsOf i) (.known i) o) ≠ none) (s : State) : complete i o s = report i o s := by
  rw [complete, writeOutcome_of_errorKindOf_ne_none h]

/-- Settles O27: an idle step adds no response; in each of the other three cases the response added is the one the step
gives, and with an error in it that response is all the step adds. -/
theorem errorsChangeNothing : Obligations.ErrorsChangeNothing := by
  intro s t r hstep hadded herr
  obtain ⟨-, rfl⟩ | ⟨req, rest, hreq, hserved⟩ := step_cases hstep
  · simp at hadded
  refine ⟨req, rest, hreq, ?_⟩
  obtain ⟨e, -, rfl⟩ | ⟨w, -, ⟨selector, code, -, rfl⟩ | ⟨i, -, rfl⟩⟩ := hserved
  · obtain rfl : .rejected e = r := by simpa using hadded
    rfl
  · obtain rfl : .done (extract w) (.unknown selector code) (.unrecognized selector code) = r := by simpa using hadded
    rfl
  · obtain rfl : .done (fieldsOf i) (.known i) (outcomeOf s i) = r := by simpa using hadded
    exact complete_of_errorKindOf_ne_none herr _

end Sys2Proof.Machine
end

section
/-! # Serving a request (00_scope.md R8)

One request's step in two parts: `answer` is the response as a function of the 288 words and the request, `writeAnswer`
writes the one word that a response reports as written, if it reports one. `step_serves` says that a step is just these
two, so every statement about a served request is one about `answer` and `writeAnswer`. -/

namespace Sys2Proof.Machine

/-- The response to a request, computed from the state before it (R84, R92, R140). -/
def answer (s : State) (req : Request) : Response :=
  match bitDecode req with
  | .error e => .rejected e
  | .ok w    => .done (extract w) (classify (extract w)) (outcomeOfClassified s (classify (extract w)))

/-- Writes the word that a response reports as written, if it reports one. -/
def writeAnswer : Response → State → State
  | .rejected _, s => s
  | .done _ _ o, s => writeOutcome o s

/-- The state after the request `req`, with `rest` behind it, has been served: the answer's word written, the request
taken and the answer added. -/
def serve (req : Request) (rest : List Request) (s : State) : State :=
  { writeAnswer (answer s req) s with requests := rest, responses := s.responses ++ [answer s req] }

/-! ## The answer to each kind of request -/

section Answer

variable {s : State} {req : Request} {w : Word}

theorem answer_of_error {e : DecodeError} (h : bitDecode req = .error e) : answer s req = .rejected e := by
  simp [answer, h]

theorem answer_of_ok (h : bitDecode req = .ok w) :
    answer s req = .done (extract w) (classify (extract w)) (outcomeOfClassified s (classify (extract w))) := by
  simp [answer, h]

theorem answer_of_known {i : Instr} (h : bitDecode req = .ok w) (hcls : classify (extract w) = .known i) :
    answer s req = .done (extract w) (.known i) (outcomeOf s i) := by
  rw [answer_of_ok h, hcls]
  rfl

theorem answer_of_unknown {selector : Selector} {code : Fin 64} (h : bitDecode req = .ok w)
    (hcls : classify (extract w) = .unknown selector code) :
    answer s req = .done (extract w) (.unknown selector code) (.unrecognized selector code) := by
  rw [answer_of_ok h, hcls]
  rfl

end Answer

/-! ## The environment's lists have no part in a write -/

/-- What an outcome writes does not depend on the two lists of the environment, which it leaves as they are. -/
theorem writeOutcome_withLists (o : StepOutcome) (s : State) (reqs : List Request) (resps : List Response) :
    writeOutcome o { s with requests := reqs, responses := resps } =
      { writeOutcome o s with requests := reqs, responses := resps } := by
  cases o <;> rfl

theorem writeAnswer_withLists (r : Response) (s : State) (reqs : List Request) (resps : List Response) :
    writeAnswer r { s with requests := reqs, responses := resps } =
      { writeAnswer r s with requests := reqs, responses := resps } := by
  cases r with
  | rejected e => rfl
  | done f c o => exact writeOutcome_withLists o s reqs resps

/-! ## The step serves -/

section Step

variable {s t : State} {req : Request} {rest : List Request}

/-- A step with a request pending serves it, whatever the request (R8). -/
theorem step_serves (hreq : s.requests = req :: rest) : step s = .next (serve req rest s) := by
  cases hdec : bitDecode req with
  | error e =>
    rw [step_of_decodeError hreq hdec, serve, answer_of_error hdec]
    rfl
  | ok w =>
    cases hcls : classify (extract w) with
    | unknown selector code =>
      rw [step_of_unknown hreq hdec hcls, serve, answer_of_unknown hdec hcls]
      rfl
    | known i =>
      have hwrite := writeOutcome_withLists (outcomeOf s i) s rest s.responses
      rw [step_of_known hreq hdec hcls, serve, answer_of_known hdec hcls, complete, hwrite, report,
        fieldsOf_of_classify hcls]
      rfl

theorem eq_serve_of_step (hreq : s.requests = req :: rest) (h : step s = .next t) : t = serve req rest s :=
  Host.Outcome.next.inj (h.symm.trans (step_serves hreq))

/-- A step is idle or serves the oldest request (R8, R179). -/
theorem step_idles_or_serves (h : step s = .next t) :
    (s.requests = [] ∧ t = s) ∨ ∃ req rest, s.requests = req :: rest ∧ t = serve req rest s := by
  cases hreq : s.requests with
  | nil => exact .inl ⟨rfl, Host.Outcome.next.inj (h.symm.trans (step_of_no_request hreq))⟩
  | cons req rest => exact .inr ⟨req, rest, rfl, eq_serve_of_step hreq h⟩

end Step

/-! ## What serving changes and leaves -/

section Serve

variable (req : Request) (rest : List Request) (s : State)

@[simp] theorem serve_requests : (serve req rest s).requests = rest := rfl

@[simp] theorem serve_responses : (serve req rest s).responses = s.responses ++ [answer s req] := rfl

@[simp] theorem readReg_serve (r : RegIndex) :
    readReg r (serve req rest s) = readReg r (writeAnswer (answer s req) s) := rfl

@[simp] theorem memRead_serve (a : MemIndex) :
    memRead a (serve req rest s) = memRead a (writeAnswer (answer s req) s) := rfl

end Serve

end Sys2Proof.Machine
end

section
/-! # Decode and encode agree (30_encoding.md section 5, 40_decode_pipeline.md section 1)

Two layers, each with both directions: a word and its eight digits, an instruction and its word. Between them, the
requests that have no word because of a character. -/

namespace Sys2Proof

/-! ## A word and its digits -/

/-- The digit of a character's value is the character in upper case (R86). -/
theorem hexDigit_of_hexVal {c : Char} {d : BitVec 4} (h : hexVal c = some d) : hexDigit d = c.toUpper := by
  unfold hexVal at h
  -- One case per row of `hexVal`, whose character and value are then literals; the last row has no value.
  split at h <;> cases h <;> decide

theorem map_hexDigit_of_hexDigits {req : Request} {ds : List (BitVec 4)} (h : hexDigits req = some ds) :
    ds.map hexDigit = req.map Char.toUpper := by
  induction hexDigits_eq_some_iff.mp h with
  | nil => rfl
  | cons hd htail ih => rw [List.map_cons, List.map_cons, hexDigit_of_hexVal hd, ih (hexDigits_eq_some_iff.mpr htail)]

theorem length_of_hexDigits {req : Request} {ds : List (BitVec 4)} (h : hexDigits req = some ds) :
    ds.length = req.length :=
  (hexDigits_eq_some_iff.mp h).length_eq.symm

/-- Encoding the word of eight digits gives the digits back (R81, R86). -/
theorem hexEncode_wordOfDigits {ds : List (BitVec 4)} (h : ds.length = 8) :
    hexEncode (wordOfDigits ds) = ds.map hexDigit := by
  match ds, h with
  | [d0, d1, d2, d3, d4, d5, d6, d7], _ =>
    have hnum := toNat_wordOfDigits d0 d1 d2 d3 d4 d5 d6 d7
    have slice (k : Nat) (d : BitVec 4)
        (hd : (wordOfDigits [d0, d1, d2, d3, d4, d5, d6, d7]).toNat / 2 ^ k % 16 = d.toNat) :
        (wordOfDigits [d0, d1, d2, d3, d4, d5, d6, d7]).extractLsb' k 4 = d := by
      apply BitVec.eq_of_toNat_eq
      rw [BitVec.extractLsb'_toNat, Nat.shiftRight_eq_div_pow]
      exact hd
    rw [hexEncode, slice 28 d0 (by omega), slice 24 d1 (by omega), slice 20 d2 (by omega), slice 16 d3 (by omega),
      slice 12 d4 (by omega), slice 8 d5 (by omega), slice 4 d6 (by omega), slice 0 d7 (by omega)]
    rfl

/-- Re-encoding a decoded request gives it with its letters in upper case (R86). -/
theorem hexEncode_of_bitDecode {req : Request} {w : Word} (h : bitDecode req = .ok w) :
    hexEncode w = req.map Char.toUpper := by
  obtain ⟨hlen, ds, hds, rfl⟩ := bitDecode_eq_ok_iff.mp h
  rw [hexEncode_wordOfDigits ((length_of_hexDigits hds).trans hlen), map_hexDigit_of_hexDigits hds]

theorem hexEncode_injective : Function.Injective hexEncode := fun w w' h => by
  have hdec := bitDecode_hexEncode w
  rw [h] at hdec
  exact Except.ok.inj (hdec.symm.trans (bitDecode_hexEncode w'))

/-- Settles O11: the digits of a word decode to it, so they tell words apart, and the digits of a decoded string's word
are the string in upper case. -/
theorem hexRoundTrip : Obligations.HexRoundTrip := by
  refine ⟨bitDecode_hexEncode, fun req w => hexEncode_of_bitDecode, fun req req' w w' h h' => ?_⟩
  rw [← hexEncode_of_bitDecode h, ← hexEncode_of_bitDecode h', hexEncode_injective.eq_iff]

/-! ## The request with a character that is no digit -/

/-- The characters without a value are those that R81's table does not list. -/
theorem hexVal_eq_none_iff {c : Char} : hexVal c = none ↔ c ∉ Machine.hexTable.map Prod.fst := by
  constructor
  · intro hnone hmem
    obtain ⟨p, hrow, rfl⟩ := List.mem_map.mp hmem
    have hsome : ∀ p ∈ Machine.hexTable, hexVal p.1 ≠ none := by decide
    exact hsome p hrow hnone
  · intro hmem
    refine Option.eq_none_iff_forall_ne_some.mpr fun d hd => hmem ?_
    exact List.mem_map.mpr ⟨_, (hexVal_eq_some_iff_mem_hexTable c d).mp hd, rfl⟩

/-- The string has no digits exactly when some character has none (R83). -/
theorem hexDigits_eq_none_iff {cs : List Char} : hexDigits cs = none ↔ ∃ c ∈ cs, hexVal c = none := by
  induction cs with
  | nil => simp [hexDigits]
  | cons c cs ih =>
    simp only [List.exists_mem_cons_iff, ← ih, hexDigits]
    cases hexVal c <;> cases hexDigits cs <;> simp

/-- `InvalidDigit` is for length 8 alone (R83, decision D3). -/
theorem bitDecode_eq_invalidDigit_iff {req : Request} :
    bitDecode req = .error .invalidDigit ↔ req.length = 8 ∧ ∃ c ∈ req, hexVal c = none := by
  rw [← hexDigits_eq_none_iff]
  refine ⟨fun herr => ?_, fun ⟨hlen, hd⟩ => bitDecode_of_hexDigits_none hlen hd⟩
  by_cases hlen : req.length = 8
  · cases hd : hexDigits req with
    | none => exact ⟨hlen, rfl⟩
    | some ds => cases herr.symm.trans (bitDecode_of_hexDigits_some hlen hd)
  · cases herr.symm.trans (bitDecode_of_length_ne hlen)

/-! ## An instruction and its word -/

/-- An instruction is well formed exactly when the immediate that it carries, if any, fits its field (R65). -/
theorem wellFormed_iff {i : Instr} : WellFormed i = true ↔ ∀ k, immediateOf i = some k → immediateFits k = true := by
  cases i <;> simp [WellFormed, immediateOf]

/-- Every instruction that the classifier gives is well formed. -/
theorem wellFormed_of_classify {f : Fields} {i : Instr} (h : classify f = .known i) : WellFormed i = true :=
  wellFormed_iff.mpr fun _ hk => eq_simm_of_classify h hk ▸ simm_fits f.immediate

/-- Every immediate that fits its field is the sign extension of some raw immediate (R65). -/
theorem exists_simm_eq {imm : Int} (h : immediateFits imm = true) : ∃ raw : BitVec 16, simm raw = imm :=
  ⟨BitVec.ofInt 16 imm, simm_ofInt imm h⟩

/-- The word of a well-formed instruction is classified as that instruction. -/
theorem classify_encode {i : Instr} (h : WellFormed i = true) : classify (extract (encode i)) = .known i := by
  cases i with
  | add rs rt rd shamt | sub rs rt rd shamt | and rs rt rd shamt | or rs rt rd shamt | xor rs rt rd shamt =>
    rw [encode, ← Machine.registerWord_eq_encodeR, Machine.classify_registerWord]
    rfl
  | beq rs rt imm | bne rs rt imm | addi rs rt imm | lw rs rt imm | sw rs rt imm =>
    obtain ⟨raw, rfl⟩ := exists_simm_eq h
    rw [encode, ← Machine.immediateWord_eq_encodeI, Machine.classify_immediateWord]
    rfl

/-! ## The decoder on a request -/

theorem decodeRequest_of_ok {req : Request} {w : Word} (h : bitDecode req = .ok w) :
    decodeRequest req = .ok (w, classify (extract w)) := by
  simp [decodeRequest, h]

/-- A request gives a word and a classification exactly when it decodes to that word, so classified. -/
theorem decodeRequest_eq_ok_iff {req : Request} {w : Word} {c : Classified} :
    decodeRequest req = .ok (w, c) ↔ bitDecode req = .ok w ∧ classify (extract w) = c := by
  cases hdec : bitDecode req with
  | error e => simp [decodeRequest, hdec]
  | ok w' =>
    rw [decodeRequest_of_ok hdec]
    simp only [Except.ok.injEq, Prod.mk.injEq]
    exact and_congr_right fun h => by rw [h]

/-- Settles O16: the digits decode to the instruction's word, which is classified as the instruction. -/
theorem decodeOfEncode : Obligations.DecodeOfEncode := fun i h =>
  decodeRequest_eq_ok_iff.mpr ⟨bitDecode_hexEncode (encode i), classify_encode h⟩

/-- Settles O17: a classified instruction encodes to its word, and the word's digits are the request in upper case. -/
theorem encodeOfDecode : Obligations.EncodeOfDecode := by
  intro req w i h
  obtain ⟨hdec, hcls⟩ := decodeRequest_eq_ok_iff.mp h
  refine ⟨wellFormed_of_classify hcls, encode_of_classify hcls, fieldsOf_of_classify hcls, ?_⟩
  rw [encodeRequest, encode_of_classify hcls, hexEncode_of_bitDecode hdec]

end Sys2Proof
end

section
/-! # The machine refines the spec's pseudocode (00_scope.md R8, R9)

Reference.lean is `Step` and `Run` in plain numbers. Stage by stage it agrees with the machine on the 288 words: the
decoded word (`reference_bitDecode`), the slices (`reference_fields`), and what a decoded word does
(`reference_execute`). -/

namespace Sys2Proof.Machine

/-! ## BitDecoder -/

/-- The digit values by character code are those of R81's table (decision D2, log entry 10). -/
theorem reference_hexValue (c : Char) : Reference.hexValue c = (hexVal c).map BitVec.toNat := by
  by_cases hc : c.toNat < 128
  · have hall : ∀ n < 128, Reference.hexValue (Char.ofNat n) = (hexVal (Char.ofNat n)).map BitVec.toNat := by decide
    simpa using hall c.toNat hc
  · have hnone : hexVal c = none := by
      refine Option.eq_none_iff_forall_ne_some.mpr fun d hd => hc ?_
      have hrow : ∀ p ∈ hexTable, p.1.toNat < 128 := by decide
      exact hrow _ ((hexVal_eq_some_iff_mem_hexTable c d).mp hd)
    rw [hnone, Reference.hexValue, if_neg (by omega), if_neg (by omega), if_neg (by omega)]
    rfl

/-- Folding the pseudocode's sum over the characters is folding the model's over their digits (R81). -/
theorem reference_foldl {cs : List Char} {ds : List (BitVec 4)} (h : hexDigits cs = some ds) (n : Nat) :
    cs.foldl (fun w c => 16 * w + (Reference.hexValue c).getD 0) n = ds.foldl (fun n d => n * 16 + d.toNat) n := by
  induction hexDigits_eq_some_iff.mp h generalizing n with
  | nil => rfl
  | cons hd htail ih =>
    rw [List.foldl_cons, List.foldl_cons, ih (hexDigits_eq_some_iff.mpr htail), reference_hexValue, hd, Nat.mul_comm]
    rfl

/-- The number of eight digits fits a word. -/
theorem toNat_wordOfDigits_of_length {ds : List (BitVec 4)} (h : ds.length = 8) :
    (wordOfDigits ds).toNat = ds.foldl (fun n d => n * 16 + d.toNat) 0 := by
  match ds, h with
  | [d0, d1, d2, d3, d4, d5, d6, d7], _ =>
    rw [toNat_wordOfDigits]
    simp only [List.foldl]
    omega

/-- The pseudocode's `BitDecode` gives the same error, or the same word as a number (R80). -/
theorem reference_bitDecode (req : Request) : Reference.bitDecode req = (bitDecode req).map BitVec.toNat := by
  by_cases hlen : req.length = 8
  · have hany : req.any (fun c => (Reference.hexValue c).isNone) = true ↔ hexDigits req = none := by
      simp [hexDigits_eq_none_iff, reference_hexValue]
    rw [Reference.bitDecode, if_neg (not_not_intro hlen)]
    cases hds : hexDigits req with
    | none =>
      rw [if_pos (hany.mpr hds), bitDecode_of_hexDigits_none hlen hds]
      rfl
    | some ds =>
      rw [if_neg (by simp [hany, hds]), bitDecode_of_hexDigits_some hlen hds, reference_foldl hds,
        ← toNat_wordOfDigits_of_length ((length_of_hexDigits hds).trans hlen)]
      rfl
  · rw [Reference.bitDecode, if_pos hlen, bitDecode_of_length_ne hlen]
    rfl

/-! ## FieldExtractor -/

section Slices

variable (w : Word)

theorem reference_fields : Reference.fields w.toNat = extract w := by
  rw [Reference.fields, extract]
  congr 1 <;> apply BitVec.eq_of_toNat_eq <;>
    simp [BitVec.extractLsb'_toNat, Nat.shiftRight_eq_div_pow]

theorem reference_rsOf : Reference.rsOf w.toNat = (extract w).field2.toFin := Fin.ext (toNat_extract_field2 w).symm

theorem reference_rtOf : Reference.rtOf w.toNat = (extract w).field3.toFin := Fin.ext (toNat_extract_field3 w).symm

theorem reference_rdOf : Reference.rdOf w.toNat = (extract w).field4.toFin := Fin.ext (toNat_extract_field4 w).symm

theorem reference_shamtOf : Reference.shamtOf w.toNat = (extract w).field5.toFin :=
  Fin.ext (toNat_extract_field5 w).symm

theorem reference_simmOf : Reference.simmOf w.toNat = simm (extract w).immediate := by
  rw [Reference.simmOf, simm_eq_ite, toNat_extract_immediate]

end Slices

/-! ## ExecutionEngine -/

/-- The signed reading of a register is `signed` of the pseudocode (R12). -/
theorem reference_signed (v : Word) : Reference.signed v = v.toInt := by
  rw [Reference.signed, BitVec.toInt_eq_toNat_cond]
  split <;> split <;> omega

theorem reference_ea (s : State) (w : Word) :
    Reference.ea (archOf s) w.toNat =
      effectiveAddress (readReg (extract w).field2.toFin s) (simm (extract w).immediate) := by
  rw [Reference.ea, reference_signed, reference_rsOf, reference_simmOf]
  rfl

section Writes

variable (s : State)

theorem archOf_writeReg (rd : RegIndex) (v : Word) :
    archOf (writeReg rd v s) = { archOf s with R := fun r => if r = rd then v else (archOf s).R r } := by
  rw [archOf, archOf]
  congr 1
  funext r
  by_cases hr : r = rd
  · rw [if_pos hr, hr, readReg_writeReg_same]
  · rw [if_neg hr, readReg_writeReg_ne rd r v s hr]

theorem archOf_memWrite (a : MemIndex) (v : Word) :
    archOf (memWrite a v s) = { archOf s with M := fun b => if b = a then v else (archOf s).M b } := by
  rw [archOf, archOf]
  congr 1
  funext b
  by_cases hb : b = a
  · rw [if_pos hb, hb, memRead_memWrite_same]
  · rw [if_neg hb, memRead_memWrite_ne a b v s hb]

end Writes

/-- What the machine does with a decoded word: the 288 words after its outcome is written, and its response. -/
def executed (s : State) (w : Word) (c : Classified) : Reference.Arch × Response :=
  (archOf (writeOutcome (outcomeOfClassified s c) s), .done (extract w) c (outcomeOfClassified s c))

section Outcomes

variable {s : State} (w : Word) {i : Instr}

theorem reference_setReg {rd : RegIndex} {v : Word} (h : outcomeOf s i = .regWritten rd v) :
    Reference.setReg (archOf s) w.toNat i rd v = executed s w (.known i) := by
  rw [Reference.setReg, reference_fields, executed, outcomeOfClassified, h, writeOutcome, archOf_writeReg]

theorem reference_outOfRange (h : outcomeOf s i = .outOfRange
    (effectiveAddress32 (readReg (extract w).field2.toFin s) (simm (extract w).immediate))) :
    Reference.outOfRange (archOf s) w.toNat i = executed s w (.known i) := by
  rw [Reference.outOfRange, reference_fields, reference_ea, ← effectiveAddress32_eq, executed, outcomeOfClassified, h]
  rfl

theorem reference_verdict {taken : Bool} (h : outcomeOf s i = .verdict taken) :
    Reference.verdict (archOf s) w.toNat i taken = executed s w (.known i) := by
  rw [Reference.verdict, reference_fields, executed, outcomeOfClassified, h]
  rfl

theorem reference_unknown (selector : Selector) (code : BitVec 6) :
    Reference.unknown (archOf s) w.toNat selector code.toNat = executed s w (.unknown selector code.toFin) := by
  have hcode : Fin.ofNat 64 code.toNat = code.toFin := Fin.ext (Nat.mod_eq_of_lt code.isLt)
  rw [Reference.unknown, reference_fields, hcode]
  rfl

end Outcomes

/-- A difference as a sum with the complement to 2^32, which is a natural number (R103). -/
theorem sub_eq_ofNat (a b : Word) : a - b = BitVec.ofNat 32 (a.toNat + (2 ^ 32 - b.toNat)) := by
  rw [BitVec.sub_def, Nat.add_comm]

/-- BNE's verdict is the negation that the pseudocode decides (R132). -/
theorem notEqualVerdict_eq_decide (a b : Word) : notEqualVerdict a b = decide (a ≠ b) :=
  Bool.eq_iff_iff.mpr ((notEqualVerdict_eq_true_iff a b).trans decide_eq_true_iff.symm)

section Execute

variable (s : State) (w : Word)

/-- The register-form rows (R102 to R106): `make` writes `f` of its two sources, which is `op` of their numbers. -/
theorem reference_registerForm (make : RegIndex → RegIndex → RegIndex → Fin 32 → Instr) (op : Nat → Nat → Nat)
    (f : Word → Word → Word) (hop : ∀ a b, f a b = BitVec.ofNat 32 (op a.toNat b.toNat))
    (hout : ∀ rs rt rd shamt, outcomeOf s (make rs rt rd shamt) = .regWritten rd (f (readReg rs s) (readReg rt s))) :
    Reference.registerForm (archOf s) w.toNat make op =
      executed s w (.known (make (extract w).field2.toFin (extract w).field3.toFin (extract w).field4.toFin
        (extract w).field5.toFin)) := by
  rw [Reference.registerForm, reference_rsOf, reference_rtOf, reference_rdOf, reference_shamtOf]
  exact reference_setReg w ((hout _ _ _ _).trans (congrArg _ (hop _ _)))

theorem reference_addi :
    Reference.addi (archOf s) w.toNat =
      executed s w (.known (.addi (extract w).field2.toFin (extract w).field3.toFin (simm (extract w).immediate))) := by
  rw [Reference.addi, reference_signed, reference_rsOf, reference_rtOf, reference_simmOf, ← add_immWord_eq_ofInt]
  exact reference_setReg w rfl

/-- The pseudocode's range test and index are those of `memIndex` when it reaches a word (R41, R42). -/
theorem reference_index {base : Word} {imm : Int} {a : MemIndex} (h : memIndex base imm = some a) :
    (0 ≤ effectiveAddress base imm ∧ effectiveAddress base imm < 256) ∧
      Fin.ofNat 256 (effectiveAddress base imm).toNat = a := by
  have ha := a.isLt
  rw [(memIndex_eq_some _ _ _).mp h]
  exact ⟨by omega, Fin.ext (Nat.mod_eq_of_lt ha)⟩

/-- The pseudocode's range test fails when `memIndex` reaches no word (R43). -/
theorem reference_no_index {base : Word} {imm : Int} (h : memIndex base imm = none) :
    ¬ (0 ≤ effectiveAddress base imm ∧ effectiveAddress base imm < 256) :=
  (memIndex_eq_none _ _).mp h

theorem reference_lw :
    Reference.lw (archOf s) w.toNat =
      executed s w (.known (.lw (extract w).field2.toFin (extract w).field3.toFin (simm (extract w).immediate))) := by
  rw [Reference.lw, reference_ea, reference_rsOf, reference_rtOf, reference_simmOf]
  obtain ⟨a, hidx, hout⟩ | ⟨hidx, hout⟩ := outcomeOf_lw_cases s (extract w).field2.toFin (extract w).field3.toFin
    (simm (extract w).immediate)
  · obtain ⟨hrange, ha⟩ := reference_index hidx
    rw [if_pos hrange, ha]
    exact reference_setReg w hout
  · rw [if_neg (reference_no_index hidx), reference_outOfRange w hout]

theorem reference_sw :
    Reference.sw (archOf s) w.toNat =
      executed s w (.known (.sw (extract w).field2.toFin (extract w).field3.toFin (simm (extract w).immediate))) := by
  rw [Reference.sw, reference_ea, reference_rsOf, reference_rtOf, reference_simmOf]
  obtain ⟨a, hidx, hout⟩ | ⟨hidx, hout⟩ := outcomeOf_sw_cases s (extract w).field2.toFin (extract w).field3.toFin
    (simm (extract w).immediate)
  · obtain ⟨hrange, ha⟩ := reference_index hidx
    rw [if_pos hrange, ha, reference_fields, executed, outcomeOfClassified, hout, writeOutcome, archOf_memWrite]
    rfl
  · rw [if_neg (reference_no_index hidx), reference_outOfRange w hout]

/-- The pseudocode's `Classify` and `Execute` on a word are the machine's (R88, R91). -/
theorem reference_execute : Reference.execute (archOf s) w.toNat = executed s w (classify (extract w)) := by
  rw [Reference.execute, ← toNat_extract_opcode, ← toNat_extract_field6, reference_rsOf, reference_rtOf,
    reference_simmOf]
  have hzero : (extract w).opcode.toNat = 0 ↔ (extract w).opcode = 0#6 := BitVec.toNat_inj (y := 0#6)
  by_cases hop : (extract w).opcode = 0#6
  · rw [classify_of_opcode_zero hop, if_pos (hzero.mpr hop)]
    obtain ⟨hc, hi⟩ | ⟨hc, hi⟩ | ⟨hc, hi⟩ | ⟨hc, hi⟩ | ⟨hc, hi⟩ | ⟨hc, hi⟩ := classifyRegister_cases (extract w) <;>
      rw [hi]
    · rw [hc]
      exact reference_registerForm s w .add (· + ·) (· + ·) BitVec.add_def (fun _ _ _ _ => rfl)
    · rw [hc]
      exact reference_registerForm s w .sub (fun a b => a + (2 ^ 32 - b)) (· - ·) sub_eq_ofNat (fun _ _ _ _ => rfl)
    · rw [hc]
      exact reference_registerForm s w .and (· &&& ·) (· &&& ·) (fun _ _ => by simp [BitVec.ofNat_and])
        (fun _ _ _ _ => rfl)
    · rw [hc]
      exact reference_registerForm s w .or (· ||| ·) (· ||| ·) (fun _ _ => by simp [BitVec.ofNat_or])
        (fun _ _ _ _ => rfl)
    · rw [hc]
      exact reference_registerForm s w .xor (· ^^^ ·) (· ^^^ ·) (fun _ _ => by simp [BitVec.ofNat_xor])
        (fun _ _ _ _ => rfl)
    · simp only [List.mem_cons, List.not_mem_nil, or_false, not_or] at hc
      obtain ⟨h32, h34, h36, h37, h38⟩ := hc
      rw [if_neg h32, if_neg h34, if_neg h36, if_neg h37, if_neg h38, reference_unknown]
  · rw [classify_of_opcode_ne_zero hop, if_neg (hzero.not.mpr hop)]
    obtain ⟨hc, hi⟩ | ⟨hc, hi⟩ | ⟨hc, hi⟩ | ⟨hc, hi⟩ | ⟨hc, hi⟩ | ⟨hc, hi⟩ := classifyImmediate_cases (extract w) <;>
      rw [hi]
    · rw [hc]
      exact reference_verdict w rfl
    · rw [hc]
      exact reference_verdict w (congrArg _ (notEqualVerdict_eq_decide _ _))
    · rw [hc]
      exact reference_addi s w
    · rw [hc]
      exact reference_lw s w
    · rw [hc]
      exact reference_sw s w
    · simp only [List.mem_cons, List.not_mem_nil, or_false, not_or] at hc
      obtain ⟨h4, h5, h8, h35, h43⟩ := hc
      rw [if_neg h8, if_neg h35, if_neg h43, if_neg h4, if_neg h5, reference_unknown]

end Execute

/-- The pseudocode's `Step` writes what the answer says, and answers the same (R8). -/
theorem reference_step (s : State) (req : Request) :
    Reference.step (archOf s) req = (archOf (writeAnswer (answer s req) s), answer s req) := by
  rw [Reference.step, reference_bitDecode]
  cases hdec : bitDecode req with
  | error e =>
    rw [answer_of_error hdec]
    rfl
  | ok w =>
    rw [answer_of_ok hdec]
    exact reference_execute s w

/-! ## Step and Run -/

/-- Settles O21: the step serves the request, and serving it is the pseudocode's `Step`. -/
theorem stepIsTheSpecStep : Obligations.StepIsTheSpecStep := by
  intro s req rest hreq
  refine ⟨serve req rest s, step_serves hreq, ?_, ?_, rfl⟩ <;> rw [reference_step] <;> rfl

theorem core_run_zero (s : State) : core.run 0 s = .next s := rfl

theorem core_run_succ {s t : State} (h : step s = .next t) (n : Nat) : core.run (n + 1) s = core.run n t := by
  have hcore : core.step s = .next t := h
  simp only [Host.Core.run, hcore]

/-- Settles O22, by induction on the pending requests: one step is `Step`, and the steps after it serve the rest. -/
theorem runIsTheSpecRun : Obligations.RunIsTheSpecRun := by
  intro s
  induction hreq : s.requests generalizing s with
  | nil => exact ⟨s, core_run_zero s, hreq, rfl, (List.append_nil _).symm, rfl⟩
  | cons req rest ih =>
    obtain ⟨u, hstep, harch, hresp, hrest⟩ := stepIsTheSpecStep s req rest hreq
    obtain ⟨t, hrun, htaken, harch', hresp', hlen⟩ := ih u hrest
    rw [harch] at harch' hresp' hlen
    refine ⟨t, (core_run_succ hstep _).trans hrun, htaken, harch', ?_, congrArg (· + 1) hlen⟩
    rw [hresp', hresp, List.append_assoc]
    rfl

end Sys2Proof.Machine
end

section
/-! # The memory's canonical form and the snapshot (20_memory.md section 1, 10_state.md R31, R34)

A canonical list holds a word exactly when the word differs from its reset contents, so it is the only canonical list of
its 256 words. -/

namespace Sys2Proof.Machine

/-! ## One list for each memory -/

/-- A word listed in a canonical memory is the one that its index reads as. -/
theorem Memory.read_of_mem {m : Memory} (h : Memory.wf m) {a : Nat} {v : Word} (hmem : (a, v) ∈ m) :
    Memory.read a m = v := by
  induction m with
  | nil => cases hmem
  | cons c m ih =>
    obtain ⟨k, u⟩ := c
    obtain ⟨hsorted, hlisted⟩ := h
    obtain ⟨hfirst, hsorted'⟩ := List.pairwise_cons.mp hsorted
    obtain heq | htail := List.mem_cons.mp hmem
    · cases heq
      simp [Memory.read]
    · have hne : k ≠ a := (hfirst _ htail).ne
      rw [Memory.read, if_neg hne]
      exact ih ⟨hsorted', fun c hc => hlisted c (List.mem_cons_of_mem _ hc)⟩ htail

/-- An index that reads as another word than its reset contents is listed with that word. -/
theorem Memory.mem_of_read_ne {m : Memory} {a : Nat} (h : Memory.read a m ≠ Memory.unlisted a) :
    (a, Memory.read a m) ∈ m := by
  induction m with
  | nil => exact absurd rfl h
  | cons c m ih =>
    obtain ⟨k, u⟩ := c
    by_cases hk : k = a
    · simp [Memory.read, hk]
    · rw [Memory.read, if_neg hk] at h ⊢
      exact List.mem_cons_of_mem _ (ih h)

/-- What a canonical memory lists: the words that differ from their reset contents, and no others (log entry 5). -/
theorem Memory.mem_iff {m : Memory} (h : Memory.wf m) {a : Nat} {v : Word} :
    (a, v) ∈ m ↔ a < 256 ∧ Memory.read a m = v ∧ v ≠ Memory.unlisted a := by
  constructor
  · intro hmem
    obtain ⟨hlt, hne⟩ := h.2 _ hmem
    exact ⟨hlt, Memory.read_of_mem h hmem, hne⟩
  · rintro ⟨-, rfl, hne⟩
    exact Memory.mem_of_read_ne hne

/-- Canonical memories whose 256 words agree are the same list. -/
theorem Memory.eq_of_read_eq {m m' : Memory} (h : Memory.wf m) (h' : Memory.wf m')
    (hread : ∀ a < 256, Memory.read a m = Memory.read a m') : m = m' := by
  refine h.1.eq_of_mem_iff h'.1 fun ⟨a, v⟩ => ?_
  rw [Memory.mem_iff h, Memory.mem_iff h']
  exact and_congr_right fun ha => by rw [hread a ha]

/-! ## The snapshot -/

/-- Settles O5: the registers of the snapshot are the state's, its memory is the 256 reads. -/
theorem snapshotShowsEveryWord : Obligations.SnapshotShowsEveryWord := fun s =>
  ⟨fun _ => rfl, fun a => by simp [snapshot]⟩

/-- Settles O4: equal snapshots have equal registers and equal words, and equal words have one canonical list. -/
theorem snapshotDeterminesState : Obligations.SnapshotDeterminesState := by
  intro s t hs ht hsnap hrequests hresponses
  have hregs : s.regs = t.regs := congrArg Snapshot.regs hsnap
  have hmem : s.mem = t.mem := by
    refine Memory.eq_of_read_eq hs ht fun a ha => ?_
    have hs := (snapshotShowsEveryWord s).2 ⟨a, ha⟩
    rw [hsnap] at hs
    exact hs.symm.trans ((snapshotShowsEveryWord t).2 ⟨a, ha⟩)
  cases s
  cases t
  simp_all

/-! ## Reset -/

/-- Settles O1: the registers are given by index, and no memory word is listed. -/
theorem resetIsTheSeed : Obligations.ResetIsTheSeed :=
  ⟨fun r => by simp [readReg, State.reset], fun _ => rfl, rfl, rfl⟩

/-- Settles O2: the memory list of the reset state is empty. -/
theorem resetHasCanonicalMemory : Obligations.ResetHasCanonicalMemory :=
  ⟨List.Pairwise.nil, fun _ hc => nomatch hc⟩

/-! ## Every step keeps the canonical form -/

theorem inv_writeOutcome (o : StepOutcome) {s : State} (h : Inv s) : Inv (writeOutcome o s) := by
  cases o with
  | regWritten rd v => exact inv_writeReg rd v s h
  | memWritten a v => exact inv_memWrite a v s h
  | verdict taken | unrecognized selector code | outOfRange ea32 => exact h

theorem inv_writeAnswer (r : Response) {s : State} (h : Inv s) : Inv (writeAnswer r s) := by
  cases r with
  | rejected e => exact h
  | done f c o => exact inv_writeOutcome o h

/-- Settles O3: an idle step changes nothing, and serving a request writes the memory by its answer alone. -/
theorem stepKeepsCanonicalMemory : Obligations.StepKeepsCanonicalMemory := by
  intro s t h hstep
  obtain ⟨-, rfl⟩ | ⟨req, rest, -, rfl⟩ := step_idles_or_serves hstep
  · exact h
  · exact inv_writeAnswer (answer s req) h

end Sys2Proof.Machine
end

section
/-! # What every step does (00_scope.md section 6, 20_memory.md section 4, 60_exceptions.md)

Statements about the step on any request. A step serves a request, and the answer reads nothing but the registers and the
one memory word that an LW reaches (`answer_congr`). -/

namespace Sys2Proof.Machine

/-! ## What an answer reads -/

/-- An outcome depends on the source registers and, for LW, on the one word that it reaches (R22). -/
theorem outcomeOf_congr {s s' : State} {i : Instr} (hsources : ∀ r ∈ sourcesOf i, readReg r s' = readReg r s)
    (hload : ∀ rs rt imm (a : MemIndex), i = .lw rs rt imm → effectiveAddress (readReg rs s) imm = (a.val : Int) →
      memRead a s' = memRead a s) :
    outcomeOf s' i = outcomeOf s i := by
  cases i with
  | lw rs rt imm =>
    have hrs : readReg rs s' = readReg rs s := hsources rs (by simp [sourcesOf])
    obtain ⟨a, hidx, hout⟩ | ⟨hidx, hout⟩ := outcomeOf_lw_cases s rs rt imm
    · have hword := hload rs rt imm a rfl ((memIndex_eq_some _ _ _).mp hidx)
      rw [hout]
      simp [outcomeOf, hrs, hidx, hword]
    · rw [hout]
      simp [outcomeOf, hrs, hidx]
  | _ => simp_all [outcomeOf, sourcesOf]

section Congr

variable {s s' : State} {req : Request}

/-- An answer depends on the registers and, for LW, on the one word that it reaches. -/
theorem answer_congr (hregs : s'.regs = s.regs)
    (hload : ∀ (w : Word) (rs rt : RegIndex) (imm : Int) (a : MemIndex), bitDecode req = .ok w →
      classify (extract w) = .known (.lw rs rt imm) → effectiveAddress (readReg rs s) imm = (a.val : Int) →
      memRead a s' = memRead a s) :
    answer s' req = answer s req := by
  cases hdec : bitDecode req with
  | error e => rw [answer_of_error hdec, answer_of_error hdec]
  | ok w =>
    cases hcls : classify (extract w) with
    | unknown selector code => rw [answer_of_unknown hdec hcls, answer_of_unknown hdec hcls]
    | known i =>
      have hreads (r : RegIndex) : readReg r s' = readReg r s := by rw [readReg, readReg, hregs]
      have hout : outcomeOf s' i = outcomeOf s i :=
        outcomeOf_congr (fun r _ => hreads r) fun rs rt imm a hi ha => hload w rs rt imm a hdec (hi ▸ hcls) ha
      rw [answer_of_known hdec hcls, answer_of_known hdec hcls, hout]

/-- What an answer writes to the registers depends on the registers alone. -/
theorem writeAnswer_regs_congr (r : Response) (hregs : s'.regs = s.regs) :
    (writeAnswer r s').regs = (writeAnswer r s).regs := by
  cases r with
  | rejected e => exact hregs
  | done f c o =>
    cases o with
    | regWritten rd v => exact congrArg (fun regs => regs.set rd v) hregs
    | memWritten a v | verdict taken | unrecognized selector code | outOfRange ea32 => exact hregs

end Congr

/-- Serving a request reads neither list of the environment: it adds its answer to whatever responses there are. -/
theorem serve_withLists (req : Request) (rest : List Request) (s : State) (reqs : List Request)
    (resps : List Response) :
    serve req rest { s with requests := reqs, responses := resps } =
      { serve req rest s with responses := resps ++ [answer s req] } := by
  have hanswer : answer { s with requests := reqs, responses := resps } req = answer s req :=
    answer_congr rfl fun _ _ _ _ _ _ _ _ => rfl
  rw [serve, hanswer, writeAnswer_withLists]
  rfl

/-! ## Every step completes -/

/-- Settles O19: the step's lemma for no pending request. -/
theorem idleHoldsState : Obligations.IdleHoldsState := fun _ => step_of_no_request

/-- Settles O20: a pending request is served, and with none the step is idle. -/
theorem everyRequestIsAnswered : Obligations.EveryRequestIsAnswered := by
  intro s
  cases hreq : s.requests with
  | nil => exact ⟨s, step_of_no_request hreq, fun _ _ h => nomatch h⟩
  | cons req rest =>
    refine ⟨serve req rest s, step_serves hreq, fun req' rest' h => ?_⟩
    obtain ⟨rfl, rfl⟩ := List.cons.inj h
    exact ⟨rfl, _, rfl⟩

/-- Settles O18: classified instructions are well formed, and `exec` completes with the outcome that the step writes. -/
theorem stepRunsDecodedInstruction : Obligations.StepRunsDecodedInstruction := by
  intro s req rest w i hreq hdec hcls
  refine ⟨wellFormed_of_classify hcls, ?_⟩
  rw [step_of_known hreq hdec hcls, exec_eq_next_complete, outcomeOf_withRequests s rest i]

/-- The instruction of a table word is what its bits are classified as (log entry 4). -/
theorem decodeTableWord_eq_some_iff {nbits w : Nat} {i : Instr} :
    decodeTableWord nbits w = some i ↔ classify (extract (tableWord nbits w)) = .known i := by
  rw [decodeTableWord, decodeRequest_of_ok (bitDecode_hexEncode _)]
  cases classify (extract (tableWord nbits w)) <;> simp

/-- Settles O50: the submitted digits decode to the table word, and the state without them is the state itself. -/
theorem fetchWordRunsInstruction : Obligations.FetchWordRunsInstruction := fun s _ _ _ h =>
  (stepRunsDecodedInstruction _ _ s.requests _ _ rfl (bitDecode_hexEncode _) (decodeTableWord_eq_some_iff.mp h)).2

/-- Settles O8: the characters without a value are those outside the table, and a rejected request writes nothing. -/
theorem digitErrorExactly : Obligations.DigitErrorExactly := by
  intro req
  simp only [← hexVal_eq_none_iff, bitDecode_eq_invalidDigit_iff, true_and]
  intro s rest hreq hlen hchar
  have hdec := bitDecode_eq_invalidDigit_iff.mpr ⟨hlen, hchar⟩
  obtain ⟨hsame, htaken, hresponse⟩ := raiseError_spec (.rejected .invalidDigit) { s with requests := rest }
  exact ⟨_, step_of_decodeError hreq hdec, hsame, htaken, hresponse⟩

/-- Settles O23: it is what the answer to a request that decodes is made of. -/
theorem responseCarriesFields : Obligations.ResponseCarriesFields := fun s req rest w hreq hdec =>
  ⟨serve req rest s, outcomeOfClassified s (classify (extract w)), step_serves hreq,
    by rw [serve_responses, answer_of_ok hdec]⟩

/-! ## What no step reads -/

/-- Settles O29: serving adds its answer to any responses, and the idle step adds nothing to them. -/
theorem responsesAreNeverRead : Obligations.ResponsesAreNeverRead := by
  intro s t earlier new hstep hadded
  obtain ⟨hreq, rfl⟩ | ⟨req, rest, hreq, rfl⟩ := step_idles_or_serves hstep
  · obtain rfl : new = [] := by simpa using hadded
    rw [List.append_nil]
    exact step_of_no_request hreq
  · obtain rfl : new = [answer s req] := (List.append_cancel_left hadded).symm
    exact (step_serves (s := { s with responses := earlier }) hreq).trans
      (congrArg _ (serve_withLists req rest s s.requests earlier))

/-- Settles O30: serving takes its request from in front of any others. -/
theorem laterRequestsAreNotRead : Obligations.LaterRequestsAreNotRead := by
  intro s t later hpending hstep
  obtain ⟨hreq, -⟩ | ⟨req, rest, hreq, rfl⟩ := step_idles_or_serves hstep
  · exact absurd hreq hpending
  · have hreq' : (submit later s).requests = req :: (rest ++ later) := by rw [submit_requests, hreq, List.cons_append]
    exact (step_serves hreq').trans
      (congrArg _ (serve_withLists req (rest ++ later) s (s.requests ++ later) s.responses))

/-! ## What a response says of the words -/

section AddedResponse

variable {s t : State} {r : Response} {req : Request} {rest : List Request} {f : Fields} {c : Classified}

/-- A response that a step adds is the answer to the request it serves. -/
theorem serve_of_added (hstep : step s = .next t) (hadded : t.responses = s.responses ++ [r]) :
    ∃ req rest, s.requests = req :: rest ∧ answer s req = r ∧ t = serve req rest s := by
  obtain ⟨-, rfl⟩ | ⟨req, rest, hreq, rfl⟩ := step_idles_or_serves hstep
  · simp at hadded
  · exact ⟨req, rest, hreq, by simpa using hadded, rfl⟩

theorem onlyRegister_serve {rd : RegIndex} {v : Word} (h : answer s req = .done f c (.regWritten rd v)) :
    OnlyRegister rd v s (serve req rest s) := by
  rw [serve, h]
  exact ⟨readReg_writeReg_same rd v s, fun q hq => readReg_writeReg_ne rd q v s hq, fun _ => rfl⟩

theorem onlyMemWord_serve {a : MemIndex} {v : Word} (h : answer s req = .done f c (.memWritten a v)) :
    OnlyMemWord a v s (serve req rest s) := by
  rw [serve, h]
  exact ⟨memRead_memWrite_same a v s, fun b hb => memRead_memWrite_ne a b v s hb, fun _ => rfl⟩

end AddedResponse

/-- Settles O26: the response added is the answer, and its write is what serving does to the words. -/
theorem reportedWriteIsTrue : Obligations.ReportedWriteIsTrue := by
  intro s t f c hstep
  constructor
  · intro rd v hadded
    obtain ⟨req, rest, -, hanswer, rfl⟩ := serve_of_added hstep hadded
    exact onlyRegister_serve hanswer
  · intro a v hadded
    obtain ⟨req, rest, -, hanswer, rfl⟩ := serve_of_added hstep hadded
    exact onlyMemWord_serve hanswer

/-- From `s` to `t` exactly the responses `new` were added, and every word holds what the last of them that reports
writing it says (R50). -/
def AccountsFor (new : List Response) (s t : State) : Prop :=
  t.responses = s.responses ++ new ∧
  (∀ a : MemIndex, memRead a t = lastStored a (memRead a s) new) ∧
  ∀ r : RegIndex, readReg r t = lastWritten r (readReg r s) new

theorem lastStored_append (a : MemIndex) (xs ys : List Response) (start : Word) :
    lastStored a start (xs ++ ys) = lastStored a (lastStored a start xs) ys := by
  induction xs generalizing start with
  | nil => rfl
  | cons x xs ih =>
    cases x with
    | rejected e => exact ih start
    | done f c o => cases o <;> exact ih _

theorem lastWritten_append (r : RegIndex) (xs ys : List Response) (start : Word) :
    lastWritten r start (xs ++ ys) = lastWritten r (lastWritten r start xs) ys := by
  induction xs generalizing start with
  | nil => rfl
  | cons x xs ih =>
    cases x with
    | rejected e => exact ih start
    | done f c o => cases o <;> exact ih _

theorem memRead_writeAnswer (a : MemIndex) (r : Response) (s : State) :
    memRead a (writeAnswer r s) = lastStored a (memRead a s) [r] := by
  cases r with
  | rejected e => rfl
  | done f c o =>
    cases o with
    | memWritten b v =>
      by_cases hb : b = a
      · subst hb
        simp [writeAnswer, writeOutcome, lastStored]
      · simp [writeAnswer, writeOutcome, lastStored, hb, memRead_memWrite_ne b a v s (Ne.symm hb)]
    | regWritten rd v | verdict taken | unrecognized selector code | outOfRange ea32 => rfl

theorem readReg_writeAnswer (q : RegIndex) (r : Response) (s : State) :
    readReg q (writeAnswer r s) = lastWritten q (readReg q s) [r] := by
  cases r with
  | rejected e => rfl
  | done f c o =>
    cases o with
    | regWritten rd v =>
      by_cases hq : rd = q
      · subst hq
        simp [writeAnswer, writeOutcome, lastWritten]
      · simp [writeAnswer, writeOutcome, lastWritten, hq, readReg_writeReg_ne rd q v s (Ne.symm hq)]
    | memWritten a v | verdict taken | unrecognized selector code | outOfRange ea32 => rfl

theorem AccountsFor.refl (s : State) : AccountsFor [] s s :=
  ⟨(List.append_nil _).symm, fun _ => rfl, fun _ => rfl⟩

theorem AccountsFor.trans {xs ys : List Response} {s t u : State} (h : AccountsFor xs s t)
    (h' : AccountsFor ys t u) : AccountsFor (xs ++ ys) s u := by
  obtain ⟨hresp, hmem, hreg⟩ := h
  obtain ⟨hresp', hmem', hreg'⟩ := h'
  refine ⟨by rw [hresp', hresp, List.append_assoc], fun a => ?_, fun r => ?_⟩
  · rw [hmem', hmem, lastStored_append]
  · rw [hreg', hreg, lastWritten_append]

/-- The response that a step adds, if any, accounts for what the step does to the words. -/
theorem exists_accountsFor_of_step {s t : State} (h : step s = .next t) : ∃ new, AccountsFor new s t := by
  obtain ⟨-, rfl⟩ | ⟨req, rest, -, rfl⟩ := step_idles_or_serves h
  · exact ⟨[], AccountsFor.refl _⟩
  · exact ⟨[answer s req], rfl, fun a => memRead_writeAnswer a _ s, fun r => readReg_writeAnswer r _ s⟩

/-- Settles O25, by induction on the number of steps: each step's response accounts for the step. -/
theorem responsesDetermineState : Obligations.ResponsesDetermineState := by
  intro n
  induction n with
  | zero =>
    intro s t hrun
    obtain rfl : s = t := Host.Outcome.next.inj hrun
    exact ⟨[], AccountsFor.refl s⟩
  | succ n ih =>
    intro s t hrun
    obtain ⟨u, hstep, -⟩ := everyRequestIsAnswered s
    obtain ⟨first, hfirst⟩ := exists_accountsFor_of_step hstep
    obtain ⟨others, hothers⟩ := ih u t ((core_run_succ hstep n).symm.trans hrun)
    exact ⟨first ++ others, hfirst.trans hothers⟩

/-! ## Which error a request gets -/

theorem not_inRange_iff {ea : Int} : ¬ InRange ea ↔ ea < 0 ∨ 256 ≤ ea := by
  simp only [InRange, Config.memoryWords]
  omega

section Status

variable {s : State} {req : Request} {w : Word}

theorem errorKindOf_answer_of_unknown {selector : Selector} {code : Fin 64} (hdec : bitDecode req = .ok w)
    (hcls : classify (extract w) = .unknown selector code) :
    errorKindOf (answer s req) = some (.unknownInstruction selector code) := by
  rw [answer_of_unknown hdec hcls]
  rfl

theorem errorKindOf_answer_of_not_inRange {rs rt : RegIndex} {imm : Int} (hdec : bitDecode req = .ok w)
    (hcls : classify (extract w) = .known (.lw rs rt imm) ∨ classify (extract w) = .known (.sw rs rt imm))
    (hout : ¬ InRange (effectiveAddress (readReg rs s) imm)) :
    errorKindOf (answer s req) = some (.outOfRangeAccess (effectiveAddress32 (readReg rs s) imm)) := by
  obtain hcls | hcls := hcls
  · rw [answer_of_known hdec hcls, outcomeOf_of_not_inRange (.inl rfl) hout]
    rfl
  · rw [answer_of_known hdec hcls, outcomeOf_of_not_inRange (.inr rfl) hout]
    rfl

/-- An instruction that is no LW or SW out of range is reported with no error (R151). -/
theorem errorKindOf_outcomeOf_eq_none {i : Instr} (f : Fields) (c : Classified)
    (hin : ∀ rs rt imm, i = .lw rs rt imm ∨ i = .sw rs rt imm → InRange (effectiveAddress (readReg rs s) imm)) :
    errorKindOf (.done f c (outcomeOf s i)) = none := by
  cases i with
  | lw rs rt imm =>
    obtain ⟨a, -, ho⟩ | ⟨hidx, -⟩ := outcomeOf_lw_cases s rs rt imm
    · rw [ho]
      rfl
    · exact absurd (hin rs rt imm (.inl rfl)) ((memIndex_eq_none _ _).mp hidx)
  | sw rs rt imm =>
    obtain ⟨a, -, ho⟩ | ⟨hidx, -⟩ := outcomeOf_sw_cases s rs rt imm
    · rw [ho]
      rfl
    · exact absurd (hin rs rt imm (.inr rfl)) ((memIndex_eq_none _ _).mp hidx)
  | _ => rfl

/-- The number of an answer, by the stage that ends the request: the length, the digits, the classification, the address
(R151). -/
theorem statusOf_answer_cases (s : State) (req : Request) :
    (statusOf (answer s req) = 1 ∧ bitDecode req = .error .invalidLength) ∨
    (statusOf (answer s req) = 2 ∧ bitDecode req = .error .invalidDigit) ∨
    (statusOf (answer s req) = 3 ∧ ∃ w selector code, bitDecode req = .ok w ∧
      classify (extract w) = .unknown selector code) ∨
    (statusOf (answer s req) = 4 ∧ ∃ w rs rt imm, bitDecode req = .ok w ∧
      (classify (extract w) = .known (.lw rs rt imm) ∨ classify (extract w) = .known (.sw rs rt imm)) ∧
      ¬ InRange (effectiveAddress (readReg rs s) imm)) ∨
    statusOf (answer s req) = 0 := by
  cases hdec : bitDecode req with
  | error e =>
    rw [answer_of_error hdec]
    cases e with
    | invalidLength => exact .inl ⟨rfl, rfl⟩
    | invalidDigit => exact .inr (.inl ⟨rfl, rfl⟩)
  | ok w =>
    cases hcls : classify (extract w) with
    | unknown selector code =>
      have herr := errorKindOf_answer_of_unknown (s := s) hdec hcls
      exact .inr (.inr (.inl ⟨by rw [statusOf, herr], w, selector, code, rfl, hcls⟩))
    | known i =>
      by_cases hin : ∀ rs rt imm, i = .lw rs rt imm ∨ i = .sw rs rt imm →
          InRange (effectiveAddress (readReg rs s) imm)
      · have herr := errorKindOf_outcomeOf_eq_none (extract w) (.known i) hin
        exact .inr (.inr (.inr (.inr (by rw [answer_of_known hdec hcls, statusOf, herr]))))
      · simp only [not_forall] at hin
        obtain ⟨rs, rt, imm, hi, hout⟩ := hin
        have haccess : classify (extract w) = .known (.lw rs rt imm) ∨
            classify (extract w) = .known (.sw rs rt imm) := by
          obtain rfl | rfl := hi
          · exact .inl hcls
          · exact .inr hcls
        have herr := errorKindOf_answer_of_not_inRange hdec haccess hout
        exact .inr (.inr (.inr (.inl ⟨by rw [statusOf, herr], w, rs, rt, imm, rfl, haccess, hout⟩)))

end Status

/-- Settles O28: the stage that ends the request gives the answer's number, and no two stages have the same. -/
theorem errorKindByStage : Obligations.ErrorKindByStage := by
  intro s t req rest r hreq hstep hadded
  obtain rfl : answer s req = r := by
    rw [eq_serve_of_step hreq hstep] at hadded
    simpa using hadded
  have haddr (rs : RegIndex) (imm : Int) : (readReg rs s).toInt + imm = effectiveAddress (readReg rs s) imm := rfl
  simp only [← bitDecode_eq_invalidLength_iff, ← bitDecode_eq_invalidDigit_iff, haddr, ← not_inRange_iff,
    ← effectiveAddress32_eq]
  have hstage := statusOf_answer_cases s req
  refine ⟨⟨fun h => ?_, fun hdec => ?_⟩, ⟨fun h => ?_, fun hdec => ?_⟩, ⟨fun h => ?_, ?_⟩, ⟨fun h => ?_, ?_⟩, ?_,
    fun w selector code => errorKindOf_answer_of_unknown, fun w rs rt imm => errorKindOf_answer_of_not_inRange⟩
  · simpa [h] using hstage
  · rw [answer_of_error hdec]
    rfl
  · simpa [h] using hstage
  · rw [answer_of_error hdec]
    rfl
  · simpa [h] using hstage
  · rintro ⟨w, selector, code, hdec, hcls⟩
    rw [statusOf, errorKindOf_answer_of_unknown hdec hcls]
  · simpa only [h, Nat.reduceEqDiff, false_and, true_and, false_or, or_false] using hstage
  · rintro ⟨w, rs, rt, imm, hdec, hcls, hout⟩
    rw [statusOf, errorKindOf_answer_of_not_inRange hdec hcls hout]
  · omega

end Sys2Proof.Machine
end

section
/-! # What an instruction reads and writes (10_state.md R22, 41_alu.md, 42_load_store.md, 43_branch_compare.md)

The register that an instruction may write, aliased operands, the three forms of the address check, a load after a store,
and the comparator's repeated requests. -/

namespace Sys2Proof.Machine

/-! ## Sanity -/

/-- Settles O6: the decoder run on the written words. -/
theorem writtenWordsDecode : Obligations.WrittenWordsDecode := by
  unfold Obligations.WrittenWordsDecode
  decide

/-! ## The destination -/

/-- An instruction with a destination has the write of it as its outcome, unless it is an LW out of range (R22). -/
theorem outcomeOf_of_destOf {s : State} {i : Instr} {rd : RegIndex} (h : destOf i = some rd) :
    (∃ v, outcomeOf s i = .regWritten rd v) ∨
    ∃ rs imm, i = .lw rs rd imm ∧ ¬ InRange (effectiveAddress (readReg rs s) imm) ∧
      outcomeOf s i = .outOfRange (effectiveAddress32 (readReg rs s) imm) := by
  cases i with
  | beq rs rt imm | bne rs rt imm | sw rs rt imm => cases h
  | lw rs rt imm =>
    cases h
    obtain ⟨a, -, hout⟩ | ⟨hidx, hout⟩ := outcomeOf_lw_cases s rs rd imm
    · exact .inl ⟨_, hout⟩
    · exact .inr ⟨rs, imm, rfl, (memIndex_eq_none _ _).mp hidx, hout⟩
  | _ =>
    cases h
    exact .inl ⟨_, rfl⟩

theorem readReg_writeOutcome_of_destOf_ne {s : State} {i : Instr} {r : RegIndex} (h : destOf i ≠ some r) :
    readReg r (writeOutcome (outcomeOf s i) s) = readReg r s := by
  cases hout : outcomeOf s i with
  | regWritten rd v =>
    have hdest := destOf_of_outcomeOf_regWritten hout
    exact readReg_writeReg_ne rd r v s fun e => h (e ▸ hdest)
  | memWritten a v | verdict taken | unrecognized selector code | outOfRange ea32 => rfl

/-- What an outcome writes to the memory depends on the memory alone. -/
theorem writeOutcome_mem_congr {s s' : State} (o : StepOutcome) (h : s'.mem = s.mem) :
    (writeOutcome o s').mem = (writeOutcome o s).mem := by
  cases o with
  | memWritten a v => exact congrArg (Memory.write a.val v) h
  | regWritten rd v | verdict taken | unrecognized selector code | outOfRange ea32 => exact h

/-- Settles O44: both states have the same outcome, since it reads the sources and the memory alone; the destination is
the only register it can name. -/
theorem registersReadAndWritten : Obligations.RegistersReadAndWritten := by
  intro i s s' t t' hmem _ hresp hsources hexec hexec'
  have hout : outcomeOf s' i = outcomeOf s i :=
    outcomeOf_congr hsources fun _ _ _ a _ _ => by rw [memRead, memRead, hmem]
  rw [exec_eq_next_complete] at hexec hexec'
  rw [hout] at hexec'
  cases hexec
  cases hexec'
  refine ⟨fun r hr => readReg_writeOutcome_of_destOf_ne hr, writeOutcome_mem_congr _ hmem, by simp [hresp],
    fun r hr => ?_⟩
  obtain ⟨v, ho⟩ | ⟨rs, imm, hi, hrange, ho⟩ := outcomeOf_of_destOf (s := s) hr
  · rw [ho]
    exact .inl ((readReg_writeReg_same r v s').trans (readReg_writeReg_same r v s).symm)
  · rw [ho]
    exact .inr ⟨rs, imm, hi, hrange, rfl, rfl⟩

/-! ## Aliased operands -/

theorem readReg_writeBack_same (i : Instr) (rd : RegIndex) (v : Word) (s : State) :
    readReg rd (writeBack i rd v s) = v := readReg_writeReg_same rd v s

theorem sameArch_of_onlyRegister {rd : RegIndex} {v : Word} {s t : State} (h : OnlyRegister rd v s t)
    (hv : v = readReg rd s) : SameArch s t := by
  obtain ⟨hrd, hregs, hmem⟩ := h
  refine ⟨fun r => ?_, hmem⟩
  by_cases hr : r = rd
  · rw [hr, hrd, hv]
  · exact hregs r hr

/-- Settles O38: the value written is the operation on the old value twice. -/
theorem aliasedOperandsUseOldValues : Obligations.AliasedOperandsUseOldValues := by
  intro r sh s
  refine ⟨_, _, _, _, _, exec_eq_next_writeBack rfl, ?_, exec_eq_next_writeBack rfl, ?_, exec_eq_next_writeBack rfl, ?_,
    exec_eq_next_writeBack rfl, ?_, exec_eq_next_writeBack rfl, ?_⟩
  · rw [readReg_writeBack_same, BitVec.toNat_add, Nat.two_mul]
  · rw [readReg_writeBack_same, BitVec.sub_self]
  · rw [readReg_writeBack_same, BitVec.xor_self]
  · exact sameArch_of_onlyRegister (writeBack_spec _ r _ s).1 BitVec.and_self
  · exact sameArch_of_onlyRegister (writeBack_spec _ r _ s).1 BitVec.or_self

/-! ## Addresses -/

theorem simm_bounds (imm : BitVec 16) : -32768 ≤ simm imm ∧ simm imm ≤ 32767 := by
  simpa [immediateFits] using simm_fits imm

/-- Settles O39: the exact sum of a word and an immediate is less than 2^32 away from the range, so that it wraps into the
range only from inside. -/
theorem addressFormsAgree : Obligations.AddressFormsAgree := by
  intro base imm
  have hwrap := effectiveAddress32_eq base (simm imm)
  have hbounds : -2 ^ 31 - 32768 ≤ effectiveAddress base (simm imm) ∧
      effectiveAddress base (simm imm) < 2 ^ 31 + 32768 := by
    obtain ⟨hlo, hhi⟩ := simm_bounds imm
    have hbase := base.le_toInt
    have hbase' := base.toInt_lt
    rw [effectiveAddress]
    omega
  refine ⟨rfl, hwrap, ?_⟩
  simp only [memIndex_eq_some, hwrap, InRange, Config.memoryWords, BitVec.toInt_ofInt, Int.bmod_def, BitVec.toNat_ofInt]
  generalize effectiveAddress base (simm imm) = ea at hbounds
  exact ⟨by omega, by omega, fun a => by omega⟩

/-! ## Memory -/

/-- Settles O42: the store leaves the registers, so the load's address is as before, and it reads the word after the
store. -/
theorem loadAfterStore : Obligations.LoadAfterStore := by
  intro s rs rt rs' rt' imm imm' a b ha hb
  have hstore := exec_eq_next_complete (.sw rs rt imm) s
  rw [outcomeOf_sw_of_effectiveAddress ha] at hstore
  obtain ⟨⟨hword, hothers, hregs⟩, -⟩ :=
    report_memWrite_spec (.sw rs rt imm) (.memWritten a (readReg rt s)) a (readReg rt s) s
  rw [← hregs rs'] at hb
  refine ⟨_, _, hstore, exec_eq_next_writeBack (outcomeOf_lw_of_effectiveAddress hb), ?_⟩
  rw [readReg_writeBack_same]
  by_cases hab : b = a
  · rw [if_pos hab, hab]
    exact hword
  · rw [if_neg hab]
    exact hothers b hab

/-- Settles O43: the first part is what one step can write; the second holds because the answers are the same and what
they write to the registers does not depend on memory. -/
theorem memoryReachedOnlyByLoadStore : Obligations.MemoryReachedOnlyByLoadStore := by
  intro s s' t t' hregs hreqs hresps hstep hstep'
  constructor
  · obtain ⟨-, hsame⟩ | ⟨req, rest, w, i, hreq, hdec, hcls, -, hwrite⟩ := oneWordPerStep s t hstep
    · exact .inl hsame
    obtain ⟨rd, v, -, -, -, hsame⟩ | ⟨a, rs, rt, imm, rfl, ha, hword⟩ := hwrite
    · exact .inl hsame
    · exact .inr ⟨req, w, rs, rt, imm, a, by rw [hreq]; rfl, hdec, hcls, ha, hword⟩
  · intro hload
    obtain ⟨hreq, rfl⟩ | ⟨req, rest, hreq, rfl⟩ := step_idles_or_serves hstep
    · obtain rfl : s' = t' := Host.Outcome.next.inj ((step_of_no_request (hreqs.trans hreq)).symm.trans hstep')
      exact ⟨hregs, hreqs, hresps⟩
    · obtain rfl := eq_serve_of_step (hreqs.trans hreq) hstep'
      have hanswer : answer s' req = answer s req :=
        answer_congr hregs fun w rs rt imm a => hload req w rs rt imm a (by rw [hreq]; rfl)
      refine ⟨?_, rfl, by rw [serve_responses, serve_responses, hanswer, hresps]⟩
      rw [serve, serve, hanswer]
      exact writeAnswer_regs_congr _ hregs

/-! ## Branches -/

/-- Settles O47: the outcome is a verdict on the two registers, and only that is reported. -/
theorem branchesOnlyReport : Obligations.BranchesOnlyReport := fun s rs rt =>
  ⟨equalVerdict (readReg rs s) (readReg rt s), notEqualVerdict (readReg rs s) (readReg rt s), fun _ => ⟨rfl, rfl⟩⟩

/-- A branch is answered with a verdict, whatever the state. -/
theorem answer_of_branch {req : Request} {w : Word} {rs rt : RegIndex} {imm : Int} (s : State)
    (hdec : bitDecode req = .ok w)
    (hcls : classify (extract w) = .known (.beq rs rt imm) ∨ classify (extract w) = .known (.bne rs rt imm)) :
    ∃ f c taken, answer s req = .done f c (.verdict taken) := by
  obtain hcls | hcls := hcls <;> exact ⟨_, _, _, answer_of_known hdec hcls⟩

/-- A request answered with a verdict is taken and answered, and that is all. -/
theorem serve_of_verdict {s : State} {req : Request} {f : Fields} {c : Classified} {taken : Bool}
    (h : answer s req = .done f c (.verdict taken)) (rest : List Request) :
    serve req rest s = { s with requests := rest, responses := s.responses ++ [answer s req] } := by
  rw [serve, h]
  rfl

/-- Settles O48: the first branch leaves every register, so the second gets the same answer. -/
theorem branchRepeatsItself : Obligations.BranchRepeatsItself := by
  intro s req rest w rs rt imm hreq hdec hcls
  obtain ⟨f, c, taken, hanswer⟩ := answer_of_branch s hdec hcls
  have hserve := serve_withLists req rest s (req :: rest) (s.responses ++ [answer s req])
  refine ⟨_, _, answer s req, step_serves hreq, step_serves rfl, ?_, ?_, rfl, ?_⟩
  all_goals rw [serve_of_verdict hanswer]
  · exact SameArch.refl s
  · rw [hserve, serve_of_verdict hanswer]
    exact SameArch.refl s
  · rw [hserve]
    simp

end Sys2Proof.Machine
end
